-- ==== Sys2Proof/Word.lean ====
section
/-!
DEFINITION. The word types of the Channel: a buffer byte (R6) and the opcode field of a command word (R49).
-/

namespace Sys2Proof

/-- A buffer byte: eight bits, bit 0 the least significant (R6, R12). -/
abbrev Byte := BitVec 8

/-- The opcode field OPC of a command word: eight bits, unsigned (R49). -/
abbrev Opcode := BitVec 8

/-- A micro-operation code `U[2:0]` (R56). -/
abbrev MicroCode := BitVec 3

/-- A pin event code `E[3:0]` (R58). -/
abbrev EventCode := BitVec 4

end Sys2Proof
end

