-- ==== Sys2Proof/Config.lean ====
section
/-!
DEFINITION. The implementation parameters of R5 to R11, with the spec's defaults, and the values the spec leaves free.
The parameters are held in `State.params`, so that a statement about every state covers every value of them
(log entry 2).
-/

namespace Sys2Proof

/-- A command word of a block whose ARG_WIDTH is `argWidth`: `ARG_WIDTH + 8` bits (R7, R49). -/
structure CommandWord where
  argWidth : Nat
  bits : BitVec (argWidth + 8)
deriving DecidableEq, Repr

/-- `bitlen(n)`: the bits needed to write n in binary, 1 for 0 (R12). -/
def bitlen (n : Nat) : Nat := if n = 0 then 1 else Nat.log2 n + 1

/-- `SHORT_BUFFER_POLICY` (R8): what TRANSMIT does with a buffer that holds fewer bits than the effective count. -/
inductive ShortBufferPolicy where
  | clamp
  | fault
deriving DecidableEq, Repr

/-- `CHAIN_MODEL` (R10): the reference model of the attached chain. -/
inductive ChainModel where
  | shift
  | freeze
deriving DecidableEq, Repr

/-- `N_CHAIN` (R9): the number of stages of the attached chain, a property of the board. -/
inductive ChainLength where
  /-- The premise `N_CHAIN = TOTAL`, the default of R9 (R112). -/
  | sameAsTotal
  /-- A board with this many stages, whatever the host asks for. -/
  | stages (n : Nat)
deriving DecidableEq, Repr

/-- The parameters a machine is built with (the parameter summary of `00_scope.md`). Values that R7 forbids cannot be
written down: the proof that they are allowed stands beside them. -/
structure Params where
  /-- `ARG_WIDTH` (R7). -/
  argWidth : Nat
  /-- `MAX_SERIAL_BITS` (R5). -/
  maxSerialBits : Nat
  /-- `SHORT_BUFFER_POLICY` (R8). -/
  shortBuffer : ShortBufferPolicy
  /-- `CHAIN_MODEL` (R10). -/
  chainModel : ChainModel
  /-- `N_CHAIN` (R9). -/
  chainLength : ChainLength
  /-- R7: the argument field carries every legal value of TOTAL and ACTIVE. -/
  argWidth_carries : bitlen maxSerialBits + 1 ≤ argWidth
deriving DecidableEq, Repr

/-- The defaults of R5 and R7 to R10. -/
def Config.defaults : Params :=
  { argWidth := 32
    maxSerialBits := 1024
    shortBuffer := .clamp
    chainModel := .shift
    chainLength := .sameAsTotal
    argWidth_carries := by decide }

/-- The bits the chain's stages and outputs hold at power-on and at the end of CONSTRUCT's set-up phase: 'any values
(a draw)' (R97, R103), by the stream of the block that draws and the number of the draw. A free value with no body: nothing
can be proved of it, nor that two blocks' bits are equal (R107, log entry 8). -/
opaque Config.freeBit : Nat → Nat → Bool

/-- The bit a shift edge takes in while LEVEL[SDATA] is UNKNOWN: no rule gives it, and R98 says that it never happens.
A free value with no body (log entry 9). -/
opaque Config.unknownDataBit : Bool

end Sys2Proof
end

