-- ==== Sys2Proof/Syntax.lean ====
section
/-!
DEFINITION. The commands and micro-operations of the Channel as data: one constructor of `Instr` for each row of
spec/opcode_table.json (R51, R56), with the operands the rules give each.
-/

namespace Sys2Proof

/-- A pin identifier: opaque, with equality and nothing else (R11). The number only tells two identifiers apart
(log entry 11); no definition computes with it. -/
structure PinId where
  name : Nat
deriving DecidableEq, Repr

/-- The three pin roles (R25): the shift clock, the serial data line and the latch line. -/
inductive Role where
  | sclk
  | sdata
  | lclk
deriving DecidableEq, Repr

/-- One value for each role. -/
structure PerRole (α : Type) where
  sclk : α
  sdata : α
  lclk : α
deriving DecidableEq, Repr

/-- A PinSet: three pin identifiers by role (R25, R52). -/
abbrev PinSet := PerRole PinId

/-- The two pin modes the block sets (R16). -/
inductive Mode where
  | output
  | input
deriving DecidableEq, Repr

/-- The two levels the block writes (R16). -/
inductive Level where
  | low
  | high
deriving DecidableEq, Repr

/-- What one call of a host primitive does to a pin: `setPinMode` or `writePinLevel` (R16). -/
inductive PinAct where
  | setMode (m : Mode)
  | write (l : Level)
deriving DecidableEq, Repr

/-- A pin event by role: what R58 encodes in four bits. -/
structure PinEvent where
  role : Role
  act : PinAct
deriving DecidableEq, Repr

/-- The instructions of this hardware (R2): the four public operations and the three micro-operations.
The argument of a command is the integer its word denotes (R50). -/
inductive Instr where
  /-- `CONSTRUCT` (R61): the side operand PinSet and `requestedBits`. -/
  | construct (pins : PinSet) (requestedBits : Int)
  /-- `TRANSMIT` (R65): the side operand buffer and `bitCount`. -/
  | transmit (buf : List Byte) (bitCount : Int)
  /-- `SET_ACTIVE` (R79): `count`. -/
  | setActive (count : Int)
  /-- `DESTROY` (R63): its argument has no effect (R53); it is kept because a fault records the whole word (R87). -/
  | destroy (arg : Int)
  /-- `SEND_BIT` (R81), a micro-operation. -/
  | sendBit (d : Bool)
  /-- `LATCH` (R82), a micro-operation. -/
  | latch
  /-- `CLEAR` (R77), a micro-operation. -/
  | clear
deriving DecidableEq, Repr

/-- What stands at the command port (R48): a command word and, beside it, the side operands (R52). A side operand is
always there; a command that takes none ignores it (log entry 13). -/
structure Command where
  word : CommandWord
  pins : PinSet
  buf : List Byte
deriving DecidableEq, Repr

/-- What the block is asked to run: a command of the host, or a micro-operation of its own sequencer (R56). -/
inductive Presented where
  | command (c : Command)
  | micro (u : MicroCode)
deriving DecidableEq, Repr

end Sys2Proof
end

