-- ==== Sys2Proof/Machine/State.lean ====
section
/-!
DEFINITION. The state of one Channel block (R20), the attached chain (R97), and the state at power-on (R108).
-/

namespace Sys2Proof.Machine

/-- LIFE (R21). -/
inductive Life where
  | unbound
  | live
  | released
deriving DecidableEq, Repr

/-- An entry of MODE: the last pin mode the block set, UNKNOWN if it has set none (R26). -/
inductive ModeReg where
  | unknown
  | output
  | input
deriving DecidableEq, Repr

/-- An entry of LEVEL: the last level the block wrote, UNKNOWN if it has written none (R27). -/
inductive LevelReg where
  | unknown
  | low
  | high
deriving DecidableEq, Repr

/-- An entry of TRACE: the event and the identifier of the pin it went to (R29, D30). -/
structure TraceEvent where
  pin : PinId
  event : PinEvent
deriving DecidableEq, Repr

/-- The attached chain (R97): stage 0 is the head of each list, the one the data line feeds. -/
structure Chain where
  /-- The shift register S. -/
  s : List Bool
  /-- The output register Q. -/
  q : List Bool
  /-- The count J of shift edges since the last latch edge, kept under FREEZE only. -/
  j : Nat
deriving DecidableEq, Repr

/-- Everything a pin event changes (R16): the pin state, the trace, and the chain that observes it. -/
structure Output where
  /-- MODE (R26). -/
  mode : PerRole ModeReg
  /-- LEVEL (R27). -/
  level : PerRole LevelReg
  /-- TRACE, oldest event first (R29). -/
  trace : List TraceEvent
  /-- The attached chain (R97). -/
  chain : Chain
deriving DecidableEq, Repr

/-- The causes of R87. -/
inductive FaultCause where
  | illegalCommand
  | noChannel
  | channelLive
  | bufferOverrun
  | pinAlias
deriving DecidableEq, Repr

/-- FAULT (R28): a three-bit code, 0 for no fault, and the command word that faulted. -/
structure FaultRecord where
  code : BitVec 3
  info : Option CommandWord
deriving DecidableEq, Repr

/-- Why a step stops with a fault. -/
inductive Fault where
  /-- Raised by every instruction and every step of a block whose FAULT.code is not 0: it has no step (R90).
  Safe: the spec says the block is stopped for good. It carries the recorded code and word. -/
  | stopped (code : BitVec 3) (info : Option CommandWord)
deriving DecidableEq, Repr

/-- Why a step has no meaning. -/
inductive Refusal where
  /-- Raised by `exec` for an instruction that has no meaning in the model yet. Safe: nothing is claimed of it. -/
  | notModelled (mnemonic : String)
  /-- Raised by SEND_BIT, LATCH and CLEAR while LIFE is not LIVE: micro-operations run only inside a command on a live
  channel (R56, R77), and there is no pin they could drive. Safe. -/
  | microOpOutsideChannel
  /-- Raised by TRANSMIT, DESTROY and the micro-operations in a state that is LIVE with no PinSet bound, which R25 and
  R61 rule out and no run reaches. Safe. -/
  | pinsUnbound
  /-- Raised by `step` for a micro-operation code with `U[2]` set: never generated (R56, X3). Safe. -/
  | reservedMicroOp (code : MicroCode)
  /-- Raised by `step` for a command word at the port that has not the block's ARG_WIDTH + 8 bits: it is no command word
  of this block, whose port has lines for one width only (R48, R49). Safe (log entry 4). -/
  | wordWidth (word : CommandWord)
  /-- Raised by `systemStep` when two live channels own one pin, before the step or after it: the spec gives it no meaning
  (R107, U12). Safe. -/
  | sharedPin
deriving DecidableEq, Repr

/-- The state of one Channel block (R20), its parameters and its inputs. -/
structure State where
  /-- The parameters of R5 and R7 to R10; no step writes them (log entry 2). -/
  params : Params
  /-- LIFE (R21). -/
  life : Life
  /-- TOTAL (R22). -/
  total : Nat
  /-- ACTIVE (R23). -/
  active : Nat
  /-- PINS (R25). -/
  pins : Option PinSet
  /-- MODE, LEVEL, TRACE and the attached chain (R26, R27, R29, R97). -/
  out : Output
  /-- FAULT (R28). -/
  fault : FaultRecord
  /-- The model's own: the stream its free bits are drawn from, another one for each block (R107, log entry 8). -/
  stream : Nat
  /-- The model's own: how many free bits have been drawn (log entry 8). -/
  draws : Nat
  /-- The model's own: micro-operations the sequencer is to run before the next command (R56, log entry 7). -/
  useq : List MicroCode
  /-- The model's own: the commands the host has yet to present, first one first (R48, log entry 1). -/
  port : List Command
deriving DecidableEq, Repr

/-- The length of the chain when TOTAL is `total` (R9). -/
def chainStages : ChainLength → Nat → Nat
  | .sameAsTotal, total => total
  | .stages n, _ => n

/-- `n` free bits of a stream, from draw number `start` on. -/
def drawBits (stream start n : Nat) : List Bool := (List.range n).map fun i => Config.freeBit stream (start + i)

/-- A chain of `n` stages whose S and Q hold any values, with J = 0 (R97, R103). -/
def Chain.drawn (stream start n : Nat) : Chain :=
  { s := drawBits stream start n, q := drawBits stream (start + n) n, j := 0 }

/-- The power-on state of a block with parameters `p`, which draws its free bits from `stream` (R108). -/
def State.powerOn (p : Params) (stream : Nat) : State :=
  { params := p
    life := .unbound
    total := 0
    active := 0
    pins := none
    out :=
      { mode := ⟨.unknown, .unknown, .unknown⟩
        level := ⟨.unknown, .unknown, .unknown⟩
        trace := []
        chain := Chain.drawn stream 0 (chainStages p.chainLength 0) }
    fault := { code := 0, info := none }
    stream := stream
    draws := 2 * chainStages p.chainLength 0
    useq := []
    port := [] }

/-- The state right after reset: power-on with the spec's default parameters (R108). -/
def State.reset : State := State.powerOn Config.defaults 0

end Sys2Proof.Machine
end

