-- ==== Sys2Proof/Machine/Chain.lean ====
section
/-!
DEFINITION. The reference model of the attached shift-register chain: what it does at a shift edge and at a latch edge, and
which pin events are edges (R97 to R102).
-/

namespace Sys2Proof.Machine

/-- The data bit a shift edge takes in, from LEVEL[SDATA] (R98). -/
def dataBit : LevelReg → Bool
  | .high => true
  | .low => false
  | .unknown => Config.unknownDataBit

/-- A shift edge with data bit d. Under SHIFT every stage moves one place toward the far end and the far end's bit is
lost (R99). Under FREEZE only the first J + 1 stages shift, and the edge is counted (R102). -/
def Chain.shiftEdge (model : ChainModel) (d : Bool) (c : Chain) : Chain :=
  match model with
  | .shift => { c with s := (d :: c.s).take c.s.length }
  | .freeze => { c with s := (d :: c.s.take c.j ++ c.s.drop (c.j + 1)).take c.s.length, j := c.j + 1 }

/-- A latch edge copies the shift register to the outputs; under FREEZE it also sets J to 0 (R100). -/
def Chain.latchEdge (model : ChainModel) (c : Chain) : Chain :=
  match model with
  | .shift => { c with q := c.s }
  | .freeze => { c with q := c.s, j := 0 }

/-- What the chain does at an event, given the pin state just before it (R98): a write HIGH of the shift clock or of the
latch line is an edge if that line was LOW and is an output; every other event changes nothing. -/
def Chain.observe (model : ChainModel) (mode : PerRole ModeReg) (level : PerRole LevelReg) (e : PinEvent)
    (c : Chain) : Chain :=
  match e.role, e.act with
  | .sclk, .write .high =>
    if level.sclk = .low ∧ mode.sclk = .output then c.shiftEdge model (dataBit level.sdata) else c
  | .lclk, .write .high =>
    if level.lclk = .low ∧ mode.lclk = .output then c.latchEdge model else c
  | _, _ => c

/-- The other reading of R100, a level-triggered latch: shift edges are as before, and while the latch line is HIGH (just
written so, or left so) and is an output, Q follows S. -/
def Chain.observeLevel (model : ChainModel) (mode : PerRole ModeReg) (level : PerRole LevelReg) (e : PinEvent)
    (c : Chain) : Chain :=
  match e.role, e.act with
  | .lclk, .write .high => if mode.lclk = .output then c.latchEdge model else c
  | .lclk, .write .low => c
  | _, _ =>
    let c' := c.observe model mode level e
    if level.lclk = .high ∧ mode.lclk = .output then c'.latchEdge model else c'

end Sys2Proof.Machine
end

