-- ==== Sys2Proof/WellFormed.lean ====
section
/-!
DEFINITION. Which instructions have an encoding: a command's argument must fit the argument field (R50, U21).
-/

namespace Sys2Proof

/-- `arg` lies in `[-2^(n-1), 2^(n-1) - 1]`, the range of an `n`-bit argument field (R50). -/
def argFits (n : Nat) (arg : Int) : Bool :=
  decide (-(2 ^ (n - 1) : Int) ≤ arg) && decide (arg < (2 ^ (n - 1) : Int))

/-- The instruction can be written as a command word with an `n`-bit argument field, or as a micro-operation code. Every
PinSet and every buffer is well formed (R52): coinciding pins are a fault of CONSTRUCT (R87), not a malformed command. -/
def wellFormed (n : Nat) : Instr → Bool
  | .construct _ requestedBits => argFits n requestedBits
  | .transmit _ bitCount => argFits n bitCount
  | .setActive count => argFits n count
  | .destroy arg => argFits n arg
  | .sendBit _ => true
  | .latch => true
  | .clear => true

end Sys2Proof
end

