-- ==== Sys2Proof/Decode.lean ====
section
/-!
DEFINITION. Command words, micro-operation codes and pin event codes: the decoders (R55, R56, R58), then the encoders
written from the same tables (R49, R51, R56, R58).
-/

namespace Sys2Proof

/-- Why nothing decodes, by name. -/
inductive DecodeError where
  /-- OPC is 0x04 to 0xFF (R54): the block raises IllegalCommand. -/
  | reservedOpcode (word : CommandWord)
  /-- `U[2]` is set (R56): never generated, refused (X3). -/
  | reservedMicroOp (code : MicroCode)
deriving DecidableEq, Repr

/-- `sext_n` (R14): an n-bit value read as two's complement. -/
def sext (n : Nat) (v : BitVec n) : Int := v.toInt

/-- `zext_n` (R14): an n-bit value read as unsigned. -/
def zext (n : Nat) (v : BitVec n) : Nat := v.toNat

/-- The field OPC, `word[n+7:n]`, of a command word with an n-bit argument (R49). -/
def opcField (n : Nat) (word : BitVec (n + 8)) : Opcode := word.extractLsb' n 8

/-- The argument of a command word, `sext_n(word[n-1:0])` (R50). -/
def argField (n : Nat) (word : BitVec (n + 8)) : Int := sext n (word.setWidth n)

/-- The opcodes of R51. -/
def opcConstruct : Opcode := 0x00#8
def opcTransmit : Opcode := 0x01#8
def opcSetActive : Opcode := 0x02#8
def opcDestroy : Opcode := 0x03#8

/-- OPC of a command word (R49). -/
def wordOpc (w : CommandWord) : Opcode := opcField w.argWidth w.bits

/-- The argument of a command word (R50). -/
def wordArg (w : CommandWord) : Int := argField w.argWidth w.bits

/-- `Decode(word)` of R55, with the side operands beside the word. -/
def decodeCommand (c : Command) : Except DecodeError Instr :=
  let opc := wordOpc c.word
  let arg := wordArg c.word
  if opc = opcConstruct then .ok (.construct c.pins arg)
  else if opc = opcTransmit then .ok (.transmit c.buf arg)
  else if opc = opcSetActive then .ok (.setActive arg)
  else if opc = opcDestroy then .ok (.destroy arg)
  else .error (.reservedOpcode c.word)

/-- The micro-operation table of R56. -/
def decodeMicro (u : MicroCode) : Except DecodeError Instr :=
  if u = 0b000#3 then .ok (.sendBit false)
  else if u = 0b001#3 then .ok (.sendBit true)
  else if u = 0b010#3 then .ok .latch
  else if u = 0b011#3 then .ok .clear
  else .error (.reservedMicroOp u)

/-- Decoding is total: an instruction, or a rejection by name. -/
def decode : Presented → Except DecodeError Instr
  | .command c => decodeCommand c
  | .micro u => decodeMicro u

/-- The PinSet that stands beside a word when none is asked for: three distinct identifiers (log entry 13). -/
def fillerPins : PinSet := ⟨⟨0⟩, ⟨1⟩, ⟨2⟩⟩

/-- A command word from its fields: OPC above an n-bit ARG in two's complement (R49, R50). -/
def encodeWord (n : Nat) (opc : Opcode) (arg : Int) : BitVec (n + 8) :=
  (opc.setWidth (n + 8) <<< n) ||| (BitVec.ofInt n arg).setWidth (n + 8)

/-- The command word of a block with an n-bit argument field, with this opcode and argument: what FAULT.info records
(R87). -/
def commandWord (n : Nat) (opc : Opcode) (arg : Int) : CommandWord := ⟨n, encodeWord n opc arg⟩

/-- The micro-operation code of SEND_BIT (R56). -/
def sendBitCode (d : Bool) : MicroCode := if d then 0b001#3 else 0b000#3

/-- The micro-operation code of LATCH (R56). -/
def latchCode : MicroCode := 0b010#3

/-- The micro-operation code of CLEAR (R56). -/
def clearCode : MicroCode := 0b011#3

/-- The encoder, for a block with an n-bit argument field: the word of each command with its side operand (R51, R52), the
code of each micro-operation (R56). -/
def encode (n : Nat) : Instr → Presented
  | .construct pins requestedBits => .command ⟨commandWord n opcConstruct requestedBits, pins, []⟩
  | .transmit buf bitCount => .command ⟨commandWord n opcTransmit bitCount, fillerPins, buf⟩
  | .setActive count => .command ⟨commandWord n opcSetActive count, fillerPins, []⟩
  | .destroy arg => .command ⟨commandWord n opcDestroy arg, fillerPins, []⟩
  | .sendBit d => .micro (sendBitCode d)
  | .latch => .micro latchCode
  | .clear => .micro clearCode

/-- The pin role field `E[3:2]` (R58). -/
def roleCode : Role → BitVec 2
  | .sclk => 0b00#2
  | .sdata => 0b01#2
  | .lclk => 0b10#2

/-- The kind and value fields `E[1:0]` (R58). -/
def actCode : PinAct → BitVec 2
  | .setMode .input => 0b00#2
  | .setMode .output => 0b01#2
  | .write .low => 0b10#2
  | .write .high => 0b11#2

/-- The four-bit code of a pin event (R58). -/
def eventCode (e : PinEvent) : EventCode := (roleCode e.role) ++ (actCode e.act)

/-- The pin event of a code; 0xC to 0xF are never generated and refused (R58, X4). -/
def decodeEvent (code : EventCode) : Option PinEvent :=
  let act : PinAct :=
    match code.getLsbD 1, code.getLsbD 0 with
    | false, false => .setMode .input
    | false, true => .setMode .output
    | true, false => .write .low
    | true, true => .write .high
  match code.getLsbD 3, code.getLsbD 2 with
  | false, false => some ⟨.sclk, act⟩
  | false, true => some ⟨.sdata, act⟩
  | true, false => some ⟨.lclk, act⟩
  | true, true => none

/-- A command word as the opcode table numbers its bits, in a block with an n-bit argument field, with `fillerPins` and the
empty buffer beside it (log entry 13). -/
def tableCommand (n w : Nat) : Command := ⟨⟨n, BitVec.ofNat (n + 8) w⟩, fillerPins, []⟩

/-- The instruction the decoder reads from the bits `w` of a row of `nbits` bits. A row of at most one byte is a
micro-operation (three bits, R56), a longer one a command word at the default widths (R49) whose bits above `nbits` are
zero (log entry 30). -/
def decodeTableWord (nbits w : Nat) : Option Instr :=
  if 2 ^ nbits ≤ w then none
  else if nbits ≤ 8 then
    if w < 8 then (decodeMicro (BitVec.ofNat 3 w)).toOption else none
  else if nbits ≤ Config.defaults.argWidth + 8 then
    (decodeCommand (tableCommand Config.defaults.argWidth w)).toOption
  else none

end Sys2Proof
end

