-- ==== Sys2Proof/Machine/Operands.lean ====
section
/-!
DEFINITION. The integers and bits an operand stands for: the clamps and counts of R13, R66 and R67, the byte stream of
R34 and BYTE_TO_BITS of R83.
-/

namespace Sys2Proof.Machine

/-- `clamp(x, lo, hi) = min(max(x, lo), hi)` (R13). -/
def clamp (x lo hi : Int) : Int := min (max x lo) hi

/-- `clamp(x, 0, hi)` as the natural number it is (R13). -/
def clampCount (x : Int) (hi : Nat) : Nat := (clamp x 0 hi).toNat

/-- `ceil8(x) = (x + 7) div 8`: the bytes that hold x bits (R13). -/
def ceil8 (x : Nat) : Nat := (x + 7) / 8

/-- The loop of BYTE_TO_BITS: test the low bit, shift right, `cnt` times (R83). -/
def shiftOut (x : Byte) : Nat → List Bool
  | 0 => []
  | cnt + 1 => x.getLsbD 0 :: shiftOut (x >>> 1) cnt

/-- `BYTE_TO_BITS(x, cnt)` (R83). The count's type refuses a count above 8 (U22, log entry 24); a count of 0 gives []. -/
def byteToBits (x : Byte) (cnt : Fin 9) : List Bool := shiftOut x cnt.val

/-- `BufRead(i)`: byte i of the transmit buffer, for i below its length (R17, R33). -/
def bufRead (buf : List Byte) (i : Nat) : Option Byte := buf[i]?

/-- `StreamBit(buf, k) = BufRead(k div 8)[k mod 8]` (R34). -/
def streamBit (buf : List Byte) (k : Nat) : Option Bool :=
  (bufRead buf (k / 8)).map fun b => b.getLsbD (k % 8)

/-- The effective bit count `eff = clamp(bitCount, 0, ACTIVE)` (R66). -/
def effectiveBits (active : Nat) (bitCount : Int) : Nat := clampCount bitCount active

/-- The number of data bits `n = min(eff, 8 L)` (R67). -/
def dataCount (active : Nat) (buf : List Byte) (bitCount : Int) : Nat :=
  min (effectiveBits active bitCount) (8 * buf.length)

/-- The bits taken from group g, a whole byte or the final partial group: `min(8, n - 8 g)` (R65). -/
def groupCount (n g : Nat) : Fin 9 := ⟨min 8 (n - 8 * g), by omega⟩

/-- The data bits of TRANSMIT in the order they are sent: for each of the bytes `0 .. ceil8(n) - 1`, read once in
ascending order, its low bits (R38, R65, R68). -/
def dataBits (buf : List Byte) (n : Nat) : List Bool :=
  (buf.take (ceil8 n)).zipIdx.flatMap fun bg => byteToBits bg.1 (groupCount n bg.2)

/-- Every bit TRANSMIT sends: n data bits, then `ACTIVE - n` zeros (R65, R69). -/
def sentBits (active : Nat) (buf : List Byte) (bitCount : Int) : List Bool :=
  let n := dataCount active buf bitCount
  dataBits buf n ++ List.replicate (active - n) false

end Sys2Proof.Machine
end

