-- ==== Sys2Proof/Machine/Flags.lean ====
section
/-!
DEFINITION. The block has no flags and no condition codes (R31). What stands in their place is the fault record: the codes of R87,
the conditions that raise each, and the two-bit codes of LIFE (R21).
-/

namespace Sys2Proof.Machine

/-- The two-bit code of LIFE; 11 is never held (R21). -/
def lifeCode : Life → BitVec 2
  | .unbound => 0b00#2
  | .live => 0b01#2
  | .released => 0b10#2

/-- The fault codes of R87; 0 is no fault, 6 and 7 are never recorded. -/
def faultCode : FaultCause → BitVec 3
  | .illegalCommand => 1#3
  | .noChannel => 2#3
  | .channelLive => 3#3
  | .bufferOverrun => 4#3
  | .pinAlias => 5#3

/-- The block has faulted and takes no command (R90). -/
abbrev stopped (s : State) : Prop := s.fault.code ≠ 0

/-- The condition of NoChannel (R87). -/
abbrev noChannel (s : State) : Prop := s.life ≠ .live

/-- The condition of ChannelLive (R87). -/
abbrev channelLive (s : State) : Prop := s.life = .live

/-- The condition of PinAlias: two of the three identifiers are equal (R61, R87). -/
abbrev pinsAlias (p : PinSet) : Prop := p.sclk = p.sdata ∨ p.sclk = p.lclk ∨ p.sdata = p.lclk

/-- The condition of BufferOverrun (R87). -/
abbrev bufferOverrun (s : State) (buf : List Byte) (bitCount : Int) : Prop :=
  s.params.shortBuffer = .fault ∧ 8 * buf.length < effectiveBits s.active bitCount

end Sys2Proof.Machine
end

