-- ==== Sys2Proof/Machine/Ops.lean ====
section
/-!
DEFINITION. The operations the meanings share: Emit and the event sequences (R16, R62, R64, R77, R81, R82), raising a fault
(R18, R89, R90), binding a channel (R61, R103), and the checks every instruction makes.
-/

namespace Sys2Proof.Machine

/-- The entry of a role. -/
def perRoleGet {α : Type} (v : PerRole α) : Role → α
  | .sclk => v.sclk
  | .sdata => v.sdata
  | .lclk => v.lclk

/-- The record with one role's entry replaced. -/
def perRoleSet {α : Type} (v : PerRole α) : Role → α → PerRole α
  | .sclk, a => { v with sclk := a }
  | .sdata, a => { v with sdata := a }
  | .lclk, a => { v with lclk := a }

/-- The value MODE holds once the block has set this mode (R26). -/
def modeReg : Mode → ModeReg
  | .output => .output
  | .input => .input

/-- The value LEVEL holds once the block has written this level (R27). -/
def levelReg : Level → LevelReg
  | .low => .low
  | .high => .high

/-- The level of a bit (R81). -/
def bitLevel (d : Bool) : Level := if d then .high else .low

/-- MODE after an event (R26). -/
def modeAfter (mode : PerRole ModeReg) (e : PinEvent) : PerRole ModeReg :=
  match e.act with
  | .setMode m => perRoleSet mode e.role (modeReg m)
  | .write _ => mode

/-- LEVEL after an event (R27). -/
def levelAfter (level : PerRole LevelReg) (e : PinEvent) : PerRole LevelReg :=
  match e.act with
  | .setMode _ => level
  | .write l => perRoleSet level e.role (levelReg l)

/-- The trace entry of an event on the PinSet `p` (R29). -/
def traceEvent (p : PinSet) (e : PinEvent) : TraceEvent := ⟨perRoleGet p e.role, e⟩

/-- `Emit(e)` (R16): the event goes to the trace, MODE and LEVEL follow it, and the chain observes it (R98). -/
def emit (model : ChainModel) (p : PinSet) (w : Output) (e : PinEvent) : Output :=
  { mode := modeAfter w.mode e
    level := levelAfter w.level e
    trace := w.trace ++ [traceEvent p e]
    chain := w.chain.observe model w.mode w.level e }

/-- Emitting events one after another (R43). -/
def emitAll (model : ChainModel) (p : PinSet) (w : Output) (es : List PinEvent) : Output :=
  es.foldl (emit model p) w

/-- `Emit(e)` with a chain whose latch is level-triggered, the other reading of R100. -/
def emitLevel (model : ChainModel) (p : PinSet) (w : Output) (e : PinEvent) : Output :=
  { mode := modeAfter w.mode e
    level := levelAfter w.level e
    trace := w.trace ++ [traceEvent p e]
    chain := w.chain.observeLevel model w.mode w.level e }

/-- Emitting events one after another, to a chain with a level-triggered latch. -/
def emitAllLevel (model : ChainModel) (p : PinSet) (w : Output) (es : List PinEvent) : Output :=
  es.foldl (emitLevel model p) w

/-- SEND_BIT(d): data, clock HIGH, clock LOW (R81, R84). -/
def sendBitEvents (d : Bool) : List PinEvent :=
  [⟨.sdata, .write (bitLevel d)⟩, ⟨.sclk, .write .high⟩, ⟨.sclk, .write .low⟩]

/-- LATCH: latch HIGH, latch LOW (R82, R84). -/
def latchEvents : List PinEvent := [⟨.lclk, .write .high⟩, ⟨.lclk, .write .low⟩]

/-- SEND_BIT for each bit in order. -/
def sendBitsEvents (bits : List Bool) : List PinEvent := bits.flatMap sendBitEvents

/-- Bits, then one latch pulse: the shape of TRANSMIT and of CLEAR (R65, R71, R77). -/
def shiftAndLatchEvents (bits : List Bool) : List PinEvent := sendBitsEvents bits ++ latchEvents

/-- CLEAR with TOTAL = `total`: that many zero bits, then one latch pulse (R77). -/
def clearEvents (total : Nat) : List PinEvent := shiftAndLatchEvents (List.replicate total false)

/-- PinSetup: each pin set to OUTPUT, then written LOW, in PinSet order (R62, the spec's own choice D9). -/
def setupEvents : List PinEvent :=
  [⟨.sclk, .setMode .output⟩, ⟨.sclk, .write .low⟩, ⟨.sdata, .setMode .output⟩, ⟨.sdata, .write .low⟩,
   ⟨.lclk, .setMode .output⟩, ⟨.lclk, .write .low⟩]

/-- PinRelease: each pin set to INPUT, in PinSet order (R64, the spec's own choice D10). -/
def releaseEvents : List PinEvent :=
  [⟨.sclk, .setMode .input⟩, ⟨.sdata, .setMode .input⟩, ⟨.lclk, .setMode .input⟩]

/-- The state with events emitted on the PinSet `p`: nothing but the output side changes. -/
def emitState (s : State) (p : PinSet) (es : List PinEvent) : State :=
  { s with out := emitAll s.params.chainModel p s.out es }

/-- `raise Fault(code, info)` (R18): FAULT records the code and the word, nothing else changes (R89), and the block is
stopped from then on (R90). -/
def raise (s : State) (cause : FaultCause) (word : CommandWord) : State :=
  { s with fault := { code := faultCode cause, info := some word } }

/-- The chain redrawn: S and Q hold any values and J is 0, as at the end of the set-up phase (R103). -/
def redrawChain (s : State) (n : Nat) : State :=
  { s with out := { s.out with chain := Chain.drawn s.stream s.draws n }, draws := s.draws + 2 * n }

/-- The registers CONSTRUCT writes before it emits anything (R61). -/
def bindChannel (s : State) (p : PinSet) (requestedBits : Int) : State :=
  let total := clampCount requestedBits s.params.maxSerialBits
  { s with life := .live, total := total, active := total, pins := some p }

/-- A stopped block takes no command and runs no micro-operation (R90). -/
def whenRunning (s : State) (o : Host.Outcome State Fault Refusal) : Host.Outcome State Fault Refusal :=
  if stopped s then .fault (.stopped s.fault.code s.fault.info) else o

/-- The meaning goes on with the bound PinSet. -/
def withPins (s : State) (k : PinSet → State) : Host.Outcome State Fault Refusal :=
  match s.pins with
  | none => .refused .pinsUnbound
  | some p => .next (k p)

/-- A micro-operation that emits `es`: it runs only on a live channel (R56, log entry 7). -/
def runMicroOp (s : State) (es : List PinEvent) : Host.Outcome State Fault Refusal :=
  whenRunning s <|
    if s.life = .live then withPins s fun p => emitState s p es else .refused .microOpOutsideChannel

end Sys2Proof.Machine
end

