-- ==== Sys2Proof/Machine/Lifecycle.lean ====
section
/-!
DEFINITION. CONSTRUCT and DESTROY (`40_lifecycle.md`).
-/

namespace Sys2Proof.Machine

/-- What CONSTRUCT does once its checks pass (R61): bind the registers, set up the pins (R62), redraw the chain (R103),
clear it (R77). -/
def constructed (s : State) (p : PinSet) (requestedBits : Int) : State :=
  let bound := emitState (bindChannel s p requestedBits) p setupEvents
  let redrawn := redrawChain bound (chainStages s.params.chainLength bound.total)
  emitState redrawn p (clearEvents redrawn.total)

/-- CONSTRUCT (R61), its faults in the order of R88: ChannelLive, then PinAlias. -/
def execConstruct (p : PinSet) (requestedBits : Int) (s : State) : Host.Outcome State Fault Refusal :=
  let word := commandWord s.params.argWidth opcConstruct requestedBits
  whenRunning s <|
    if channelLive s then .next (raise s .channelLive word)
    else if pinsAlias p then .next (raise s .pinAlias word)
    else .next (constructed s p requestedBits)

/-- What DESTROY does once its check passes (R63): clear the whole chain, release the pins (R64), end the channel. -/
def destroyed (s : State) (p : PinSet) : State :=
  let cleared := emitState s p (clearEvents s.total)
  let released := emitState cleared p releaseEvents
  { released with life := .released }

/-- DESTROY (R63). Its argument matters only to the word a fault records (R53, R87). -/
def execDestroy (arg : Int) (s : State) : Host.Outcome State Fault Refusal :=
  let word := commandWord s.params.argWidth opcDestroy arg
  whenRunning s <|
    if noChannel s then .next (raise s .noChannel word)
    else withPins s fun p => destroyed s p

end Sys2Proof.Machine
end

