-- ==== Sys2Proof/Machine/Primitives.lean ====
section
/-!
DEFINITION. The micro-operations SEND_BIT, LATCH (`44_primitives.md`) and CLEAR (`42_clear.md`).
-/

namespace Sys2Proof.Machine

/-- SEND_BIT(d) (R81). -/
def execSendBit (d : Bool) (s : State) : Host.Outcome State Fault Refusal := runMicroOp s (sendBitEvents d)

/-- LATCH (R82). -/
def execLatch (s : State) : Host.Outcome State Fault Refusal := runMicroOp s latchEvents

/-- CLEAR (R77). -/
def execClear (s : State) : Host.Outcome State Fault Refusal := runMicroOp s (clearEvents s.total)

end Sys2Proof.Machine
end

