-- ==== Sys2Proof/Machine/SetActive.lean ====
section
/-!
DEFINITION. SET_ACTIVE (`43_set_active.md`).
-/

namespace Sys2Proof.Machine

/-- SET_ACTIVE (R79): ACTIVE becomes the count clamped to TOTAL; no event. -/
def execSetActive (count : Int) (s : State) : Host.Outcome State Fault Refusal :=
  let word := commandWord s.params.argWidth opcSetActive count
  whenRunning s <|
    if noChannel s then .next (raise s .noChannel word)
    else .next { s with active := clampCount count s.total }

end Sys2Proof.Machine
end

