-- ==== Sys2Proof/Machine/Transmit.lean ====
section
/-!
DEFINITION. TRANSMIT (`41_transmit.md`).
-/

namespace Sys2Proof.Machine

/-- TRANSMIT (R65): the lifecycle check, then the overrun check of R67, then the data bits, the padding and the latch. -/
def execTransmit (buf : List Byte) (bitCount : Int) (s : State) : Host.Outcome State Fault Refusal :=
  let word := commandWord s.params.argWidth opcTransmit bitCount
  whenRunning s <|
    if noChannel s then .next (raise s .noChannel word)
    else if bufferOverrun s buf bitCount then .next (raise s .bufferOverrun word)
    else withPins s fun p => emitState s p (shiftAndLatchEvents (sentBits s.active buf bitCount))

end Sys2Proof.Machine
end

