-- ==== Sys2Proof/Machine/Dispatch.lean ====
section
/-!
DEFINITION. The meaning of each instruction: one arm for each row of spec/opcode_table.json.
-/

namespace Sys2Proof.Machine

def exec (i : Instr) (s : State) : Host.Outcome State Fault Refusal :=
  match i with
  | .construct pins requestedBits => Sys2Proof.Machine.execConstruct pins requestedBits s
  | .transmit buf bitCount => Sys2Proof.Machine.execTransmit buf bitCount s
  | .setActive count => Sys2Proof.Machine.execSetActive count s
  | .destroy arg => Sys2Proof.Machine.execDestroy arg s
  | .sendBit d => Sys2Proof.Machine.execSendBit d s
  | .latch => Sys2Proof.Machine.execLatch s
  | .clear => Sys2Proof.Machine.execClear s

end Sys2Proof.Machine
end

