-- ==== Sys2Proof/Machine/Fetch.lean ====
section
/-!
DEFINITION. What the block runs next: the host presents commands one at a time, and a command is accepted only when nothing
of the one before it is left to run (R48, R116). There is no program counter and no fetch from memory (R30, R46).
-/

namespace Sys2Proof.Machine

/-- What the next step finds. -/
inductive Fetched where
  /-- The block has faulted: it has no step (R90). -/
  | stopped (code : BitVec 3) (info : Option CommandWord)
  /-- Nothing is presented: the block waits for the host (log entry 6). -/
  | idle
  /-- An instruction, and the state with it taken from where it stood. -/
  | instr (i : Instr) (s : State)
  /-- A word with a reserved opcode (R54), and the state with it taken from the port. -/
  | illegal (word : CommandWord) (s : State)
  /-- A word that has not the block's width (R49, log entry 4). -/
  | width (word : CommandWord)
  /-- A micro-operation code that is never generated (R56). -/
  | reserved (code : MicroCode)
deriving DecidableEq, Repr

/-- The next thing to run: a micro-operation the sequencer holds, else the command at the port. -/
def fetch (s : State) : Fetched :=
  if stopped s then .stopped s.fault.code s.fault.info
  else
    match s.useq, s.port with
    | u :: us, _ =>
      match decodeMicro u with
      | .ok i => .instr i { s with useq := us }
      | .error _ => .reserved u
    | [], c :: cs =>
      if c.word.argWidth = s.params.argWidth then
        match decodeCommand c with
        | .ok i => .instr i { s with port := cs }
        | .error _ => .illegal c.word { s with port := cs }
      else .width c.word
    | [], [] => .idle

/-- The state once the host has more commands to present, after those it already has (R43, R48). -/
def issue (s : State) (cs : List Command) : State := { s with port := s.port ++ cs }

/-- A channel as CONSTRUCT's set-up phase leaves it, for a micro-operation that is to run where no channel is live
(log entry 7). -/
def microContext (s : State) : State :=
  if s.life = .live then s
  else
    { s with
      life := .live
      pins := some fillerPins
      out := { s.out with mode := ⟨.output, .output, .output⟩, level := ⟨.low, .low, .low⟩ } }

/-- The state with a command word presented first (log entry 13). -/
def presentWord (s : State) (w : Nat) : State :=
  { s with useq := [], port := tableCommand s.params.argWidth w :: s.port }

/-- The state with a micro-operation code next in the sequencer. -/
def presentMicro (s : State) (w : Nat) : State :=
  let s' := microContext s
  { s' with useq := BitVec.ofNat 3 w :: s'.useq }

/-- Rows of at most one byte are micro-operations, longer ones command words (as `decodeTableWord` reads them). -/
def presentTableWord (s : State) (nbits w : Nat) : State :=
  if nbits ≤ 8 then presentMicro s w else presentWord s w

end Sys2Proof.Machine
end

