-- ==== Sys2Proof/Machine/Step.lean ====
section
/-!
DEFINITION. One step of the block: one command, or one micro-operation the sequencer holds, run to completion (R30, R48).
-/

namespace Sys2Proof.Machine

/-- One step. A stopped block has none (R90); with nothing presented nothing changes (log entry 6); a reserved opcode
raises IllegalCommand (R54); a word of another width is no command of this block (R49). -/
def step (s : State) : Host.Outcome State Fault Refusal :=
  match fetch s with
  | .stopped code info => .fault (.stopped code info)
  | .idle => .next s
  | .instr i s' => exec i s'
  | .illegal word s' => .next (raise s' .illegalCommand word)
  | .width word => .refused (.wordWidth word)
  | .reserved code => .refused (.reservedMicroOp code)

/-- The state whose very next step runs the instruction with these bits (log entries 1, 7 and 13). -/
def State.withFetchWord (s : State) (nbits w : Nat) : State := presentTableWord s nbits w

end Sys2Proof.Machine
end

