-- ==== Sys2Proof/Machine/Assembler.lean ====
section
/-!
DEFINITION. The textual form of commands (R59): one command per line, `;` starts a comment, integer literals in decimal (with an
optional `-`), `0x` hexadecimal or `0b` binary, no labels and no pseudo-instructions (R60). Log entry 29.
-/

namespace Sys2Proof.Machine

/-- Why a line is no command. -/
inductive AsmError where
  /-- The line's first word is none of the four mnemonics (R59, R60). -/
  | unknownMnemonic
  /-- The operands do not have the form R59 gives the mnemonic. -/
  | badOperands
  /-- The argument does not fit the argument field (R50, U21). -/
  | argumentRange
deriving DecidableEq, Repr

/-- The pieces of a line. -/
inductive Token where
  | word (cs : List Char)
  | comma
  | openBracket
  | closeBracket
deriving DecidableEq, Repr

/-- The word gathered so far (last character first), as the pieces it makes. -/
def flushWord : List Char → List Token
  | [] => []
  | c :: cs => [.word (c :: cs).reverse]

/-- The pieces of a line; `acc` is the word being gathered, last character first. A comment ends the line. -/
def lexLine : List Char → List Char → List Token
  | [], acc => flushWord acc
  | c :: cs, acc =>
    if c = ';' then flushWord acc
    else if c = ',' then flushWord acc ++ .comma :: lexLine cs []
    else if c = '[' then flushWord acc ++ .openBracket :: lexLine cs []
    else if c = ']' then flushWord acc ++ .closeBracket :: lexLine cs []
    else if c = ' ' ∨ c = '\t' ∨ c = '\r' then flushWord acc ++ lexLine cs []
    else lexLine cs (c :: acc)

/-- The value of a digit character. -/
def digitValue (c : Char) : Option Nat :=
  if '0' ≤ c ∧ c ≤ '9' then some (c.toNat - '0'.toNat)
  else if 'a' ≤ c ∧ c ≤ 'f' then some (c.toNat - 'a'.toNat + 10)
  else if 'A' ≤ c ∧ c ≤ 'F' then some (c.toNat - 'A'.toNat + 10)
  else none

/-- Digits of a base read on from a value; an underscore only groups digits (R12). -/
def readDigits (base : Nat) : List Char → Nat → Option Nat
  | [], v => some v
  | c :: cs, v =>
    if c = '_' then readDigits base cs v
    else
      match digitValue c with
      | some d => if d < base then readDigits base cs (base * v + d) else none
      | none => none

/-- A number of a base: it starts with a digit. -/
def readNumber (base : Nat) : List Char → Option Nat
  | [] => none
  | c :: cs => if c = '_' then none else readDigits base (c :: cs) 0

/-- An unsigned literal: `0x` hexadecimal, `0b` binary, else decimal (R59). -/
def natLiteral : List Char → Option Nat
  | '0' :: 'x' :: cs => readNumber 16 cs
  | '0' :: 'b' :: cs => readNumber 2 cs
  | cs => readNumber 10 cs

/-- An integer literal: only the decimal form takes a sign (R59). -/
def intLiteral : List Char → Option Int
  | '-' :: cs => (readNumber 10 cs).map fun v => -(v : Int)
  | cs => (natLiteral cs).map fun v => (v : Int)

/-- A byte literal: 0 to 255. -/
def byteLiteral (cs : List Char) : Option Byte :=
  match natLiteral cs with
  | some v => if v < 256 then some (BitVec.ofNat 8 v) else none
  | none => none

/-- The rest of a byte list after its first byte, up to the closing bracket, and what follows it. -/
def bytesTail : List Token → Option (List Byte × List Token)
  | .closeBracket :: ts => some ([], ts)
  | .comma :: .word w :: ts =>
    match byteLiteral w, bytesTail ts with
    | some b, some (bs, rest) => some (b :: bs, rest)
    | _, _ => none
  | _ => none

/-- A byte list after its opening bracket; `[]` is the empty buffer (R59). -/
def bytesBody : List Token → Option (List Byte × List Token)
  | .closeBracket :: ts => some ([], ts)
  | .word w :: ts =>
    match byteLiteral w, bytesTail ts with
    | some b, some (bs, rest) => some (b :: bs, rest)
    | _, _ => none
  | _ => none

/-- The PinId a name stands for. -/
def pinNamed (env : List (List Char × PinId)) (name : List Char) : Option PinId :=
  (env.find? fun e => e.1 = name).map (·.2)

/-- CONSTRUCT's operands. -/
def constructOperands (env : List (List Char × PinId)) : List Token → Option Instr
  | [.word a, .comma, .word b, .comma, .word c, .comma, .word r] =>
    match pinNamed env a, pinNamed env b, pinNamed env c, intLiteral r with
    | some pa, some pb, some pc, some v => some (.construct ⟨pa, pb, pc⟩ v)
    | _, _, _, _ => none
  | _ => none

/-- TRANSMIT's operands. -/
def transmitOperands : List Token → Option Instr
  | .openBracket :: ts =>
    match bytesBody ts with
    | some (bs, [.comma, .word n]) => (intLiteral n).map fun v => .transmit bs v
    | _ => none
  | _ => none

/-- SET_ACTIVE's operand. -/
def setActiveOperands : List Token → Option Instr
  | [.word n] => (intLiteral n).map fun v => .setActive v
  | _ => none

/-- DESTROY has no operand; its canonical word has ARG = 0 (R53). -/
def destroyOperands : List Token → Option Instr
  | [] => some (.destroy 0)
  | _ => none

/-- A command that can be encoded with an n-bit argument field. -/
def checkedInstr (n : Nat) : Option Instr → Except AsmError (Option Instr)
  | none => .error .badOperands
  | some i => if wellFormed n i then .ok (some i) else .error .argumentRange

/-- One line of text: a command, or nothing for an empty line or a comment (R59). -/
def assembleLine (n : Nat) (env : List (List Char × PinId)) (line : List Char) : Except AsmError (Option Instr) :=
  match lexLine line [] with
  | [] => .ok none
  | .word m :: ts =>
    if m = "CONSTRUCT".toList then checkedInstr n (constructOperands env ts)
    else if m = "TRANSMIT".toList then checkedInstr n (transmitOperands ts)
    else if m = "SET_ACTIVE".toList then checkedInstr n (setActiveOperands ts)
    else if m = "DESTROY".toList then checkedInstr n (destroyOperands ts)
    else .error .unknownMnemonic
  | _ => .error .unknownMnemonic

/-- The command an instruction is issued as; a micro-operation is none (R56). -/
def commandOf (n : Nat) (i : Instr) : List Command :=
  match encode n i with
  | .command c => [c]
  | .micro _ => []

/-- A program text, line by line, as the commands the host issues (R59). -/
def assemble (n : Nat) (env : List (List Char × PinId)) : List (List Char) → Except AsmError (List Command)
  | [] => .ok []
  | line :: lines =>
    match assembleLine n env line with
    | .error e => .error e
    | .ok none => assemble n env lines
    | .ok (some i) =>
      match assemble n env lines with
      | .error e => .error e
      | .ok cs => .ok (commandOf n i ++ cs)

end Sys2Proof.Machine
end

