-- ==== Sys2Proof/Machine/Sequencer.lean ====
section
/-!
DEFINITION. The micro-operation expansion of each instruction (R57). The machine runs a command as one step (R30); this is the
finer sequence of codes the same command is carried out with, so that the two can be compared.
-/

namespace Sys2Proof.Machine

/-- SEND_BIT for each bit, then LATCH. -/
def shiftAndLatchCodes (bits : List Bool) : List MicroCode := bits.map sendBitCode ++ [latchCode]

/-- The micro-operations an instruction is carried out with on the state `s` (R57): those of CONSTRUCT follow its six
set-up events, those of DESTROY precede its three release events. -/
def expansion (s : State) : Instr → List MicroCode
  | .construct _ _ => [clearCode]
  | .transmit buf bitCount => shiftAndLatchCodes (sentBits s.active buf bitCount)
  | .setActive _ => []
  | .destroy _ => [clearCode]
  | .sendBit d => [sendBitCode d]
  | .latch => [latchCode]
  | .clear => shiftAndLatchCodes (List.replicate s.total false)

end Sys2Proof.Machine
end

