-- ==== Sys2Proof/Machine/System.lean ====
section
/-!
DEFINITION. Several Channel blocks side by side (R107): each has its own state, and they share nothing. Their pin sets must be
disjoint; where they would not be, the model gives no meaning (U12).
-/

namespace Sys2Proof.Machine

/-- The pins a block owns: those of its PinSet while it is LIVE (R25). -/
def ownedPins (s : State) : List PinId :=
  match s.life, s.pins with
  | .live, some p => [p.sclk, p.sdata, p.lclk]
  | _, _ => []

/-- No pin is owned by both blocks. -/
def disjointPins (a b : State) : Bool := (ownedPins a).all fun pin => !(ownedPins b).contains pin

/-- No pin is owned by two of the blocks (R107). -/
def allDisjoint : List State → Bool
  | [] => true
  | s :: rest => (rest.all fun t => disjointPins s t) && allDisjoint rest

/-- A new block joins: it is powered on (R90, R108) and draws its free bits from a stream that no other block draws from. -/
def addBlock (blocks : List State) (p : Params) : List State := blocks ++ [State.powerOn p blocks.length]

/-- One step of block number `k`: the others do not move. The pin sets must be disjoint before the step, the premise of R107,
and after it. -/
def systemStep (blocks : List State) (k : Fin blocks.length) : Host.Outcome (List State) Fault Refusal :=
  if allDisjoint blocks then
    match step blocks[k] with
    | .next s =>
      let after := blocks.set k s
      if allDisjoint after then .next after else .refused .sharedPin
    | .fault r => .fault r
    | .refused r => .refused r
  else .refused .sharedPin

end Sys2Proof.Machine
end

