-- ==== Sys2Proof/Safety.lean ====
section
/-!
DEFINITION. What counts as a safe run and as a completed one (R86), what an observer sees (R32), and the invariants of the block
(R24 to R28, R97, R114), in the terms the statements use.
-/

namespace Sys2Proof.Safety

open Sys2Proof.Machine

/-- The run has failed: a fault is recorded (R86). -/
abbrev failed (s : State) : Prop := stopped s

/-- The run is over and did not fail: nothing is left to run and no fault is recorded (R86). -/
abbrev completed (s : State) : Prop := s.useq = [] ∧ s.port = [] ∧ ¬failed s

/-- `k` steps, stopping at the first fault or refusal: the host's `Core.run`, on this machine. -/
def steps : Nat → State → Host.Outcome State Machine.Fault Machine.Refusal
  | 0, s => .next s
  | k + 1, s =>
    match step s with
    | .next t => steps k t
    | .fault r => .fault r
    | .refused r => .refused r

/-- What a claim about the block observes: the trace and the chain's parallel outputs (R32). -/
def observed (s : State) : List TraceEvent × List Bool := (s.out.trace, s.out.chain.q)

/-- While LIVE (R25, R26, R27, R114): three distinct pins are bound, all are outputs, the shift clock and the latch line
are LOW, and the data line has a known level. -/
structure LiveInv (s : State) : Prop where
  bound : s.pins.map (fun p => decide (pinsAlias p)) = some false
  mode : s.out.mode = ⟨.output, .output, .output⟩
  sclkLow : s.out.level.sclk = .low
  lclkLow : s.out.level.lclk = .low
  sdataKnown : s.out.level.sdata ≠ .unknown

/-- Once RELEASED (R25, R26): a PinSet is kept and all three pins are inputs. -/
structure ReleasedInv (s : State) : Prop where
  bound : s.pins.map (fun p => decide (pinsAlias p)) = some false
  mode : s.out.mode = ⟨.input, .input, .input⟩

/-- While UNBOUND (R108): no PinSet, nothing known of the pins, nothing emitted. -/
structure UnboundInv (s : State) : Prop where
  total : s.total = 0
  pins : s.pins = none
  mode : s.out.mode = ⟨.unknown, .unknown, .unknown⟩
  level : s.out.level = ⟨.unknown, .unknown, .unknown⟩
  trace : s.out.trace = []

/-- The invariant of the block: it holds at power-on and every step keeps it. -/
structure Inv (s : State) : Prop where
  /-- R24. -/
  activeLeTotal : s.active ≤ s.total
  /-- R24. -/
  totalLeMax : s.total ≤ s.params.maxSerialBits
  live : s.life = .live → LiveInv s
  released : s.life = .released → ReleasedInv s
  unbound : s.life = .unbound → UnboundInv s
  /-- R87: codes 6 and 7 are never recorded. -/
  faultCode : s.fault.code.toNat ≤ 5
  /-- R28, R87: a word is recorded exactly with a fault. -/
  faultInfo : s.fault.info.isSome = decide (s.fault.code ≠ 0)
  /-- R97: S and Q have N_CHAIN stages. -/
  sStages : s.out.chain.s.length = chainStages s.params.chainLength s.total
  qStages : s.out.chain.q.length = chainStages s.params.chainLength s.total

/-- Between commands, in a block whose sequencer has been given nothing of its own: no shift edge is uncounted by a latch
edge (J = 0, R97, R104). -/
structure BoundaryInv (s : State) : Prop where
  inv : Inv s
  sequencer : s.useq = []
  count : s.out.chain.j = 0

/-- The event codes of a trace, in order (R58). -/
def codes (es : List TraceEvent) : List EventCode := es.map fun e => eventCode e.event

/-- The trace of SEND_BIT(d): `632` or `732` (R81). -/
def sendBitTrace (d : Bool) : List EventCode := [if d then 0x7#4 else 0x6#4, 0x3#4, 0x2#4]

/-- The trace of n SEND_BIT(0): `632` repeated. -/
def zerosTrace (n : Nat) : List EventCode := (List.replicate n [0x6#4, 0x3#4, 0x2#4]).flatten

/-- The trace of LATCH: `BA` (R82). -/
def latchTrace : List EventCode := [0xB#4, 0xA#4]

/-- The trace of CONSTRUCT's set-up phase: `1 2 5 6 9 A` (R62). -/
def setupTrace : List EventCode := [0x1#4, 0x2#4, 0x5#4, 0x6#4, 0x9#4, 0xA#4]

/-- The trace of DESTROY's release phase: `0 4 8` (R64). -/
def releaseTrace : List EventCode := [0x0#4, 0x4#4, 0x8#4]

/-- From `s` to `t` the block emitted exactly the events with these codes, in this order, each on the pin that `p` gives
its role (R29). The codes tell every event apart (R58). -/
def emitted (s t : State) (p : PinSet) (cs : List EventCode) : Prop :=
  ∃ es, t.out.trace = s.out.trace ++ es ∧ codes es = cs ∧ ∀ e ∈ es, e.pin = perRoleGet p e.event.role

/-- Bit k of the buffer's stream as R68 writes it: `buf[k div 8][k mod 8]`. -/
def bufBit (buf : List Byte) (k : Nat) : Bool := (buf.getD (k / 8) 0).getLsbD (k % 8)

/-- The effective bit count as R66 writes it. -/
def effOf (s : State) (bitCount : Int) : Nat := (min (max bitCount 0) (s.active : Int)).toNat

/-- The number of data bits as R67 writes it. -/
def dataOf (s : State) (buf : List Byte) (bitCount : Int) : Nat := min (effOf s bitCount) (8 * buf.length)

/-- The condition of BufferOverrun as R87 writes it. -/
def overruns (s : State) (buf : List Byte) (bitCount : Int) : Prop :=
  s.params.shortBuffer = .fault ∧ 8 * buf.length < effOf s bitCount

/-- What several blocks side by side keep (R107): no pin has two owners, and each block draws from a stream of its own. -/
structure SystemInv (blocks : List State) : Prop where
  pins : allDisjoint blocks = true
  streams : ∀ (k : Nat) (s : State), blocks[k]? = some s → s.stream = k

/-- The output side after an instruction that does not fault, on a chain whose latch is level-triggered, the other reading of
R100: `p` is the PinSet it drives. -/
def levelOutput (s : State) (p : PinSet) : Instr → Output
  | .construct _ r =>
    let total := clampCount r s.params.maxSerialBits
    let drawn := Chain.drawn s.stream s.draws (chainStages s.params.chainLength total)
    let setUp := { emitAllLevel s.params.chainModel p s.out setupEvents with chain := drawn }
    emitAllLevel s.params.chainModel p setUp (clearEvents total)
  | .transmit buf n => emitAllLevel s.params.chainModel p s.out (shiftAndLatchEvents (sentBits s.active buf n))
  | .setActive _ => s.out
  | .destroy _ => emitAllLevel s.params.chainModel p s.out (clearEvents s.total ++ releaseEvents)
  | .sendBit d => emitAllLevel s.params.chainModel p s.out (sendBitEvents d)
  | .latch => emitAllLevel s.params.chainModel p s.out latchEvents
  | .clear => emitAllLevel s.params.chainModel p s.out (clearEvents s.total)

/-- An outcome with its next state mapped. -/
def mapNext (f : State → State) :
    Host.Outcome State Machine.Fault Machine.Refusal → Host.Outcome State Machine.Fault Machine.Refusal
  | .next s => .next (f s)
  | .fault r => .fault r
  | .refused r => .refused r

/-- The state with everything about the attached chain blotted out: what is left is the block. -/
def withoutChain (s : State) : State :=
  { s with
    params := { s.params with chainModel := .shift, chainLength := .sameAsTotal }
    out := { s.out with chain := { s := [], q := [], j := 0 } }
    stream := 0
    draws := 0 }

/-- A PinSet with its identifiers renamed. -/
def renamePinSet (f : PinId → PinId) (p : PinSet) : PinSet := ⟨f p.sclk, f p.sdata, f p.lclk⟩

/-- An instruction with its pin identifiers renamed. -/
def renameInstr (f : PinId → PinId) : Instr → Instr
  | .construct p r => .construct (renamePinSet f p) r
  | .transmit buf n => .transmit buf n
  | .setActive n => .setActive n
  | .destroy a => .destroy a
  | .sendBit d => .sendBit d
  | .latch => .latch
  | .clear => .clear

/-- A command with its pin identifiers renamed. -/
def renameCommand (f : PinId → PinId) (c : Command) : Command := { c with pins := renamePinSet f c.pins }

/-- A state with every pin identifier renamed. -/
def renameState (f : PinId → PinId) (s : State) : State :=
  { s with
    pins := s.pins.map (renamePinSet f)
    out := { s.out with trace := s.out.trace.map fun e => { e with pin := f e.pin } }
    port := s.port.map (renameCommand f) }

end Sys2Proof.Safety
end

