-- ==== Sys2Proof/Certificates/Slice0/Obligations.lean ====
section
/-!
DEFINITION. The statements for the provers. Each is about the block as spec/ gives it; none is about a program. Next states are
written as the state before with the changed fields named, so that everything else is stated to be unchanged.
-/

open Sys2Proof Sys2Proof.Machine Sys2Proof.Safety

/-! ### Power-on and the invariants -/

/-- R108, with R28 for FAULT.info and R97 for the chain's J: the power-on state, field by field, for every value of the
parameters; S and Q have N_CHAIN stages and hold free bits. The number of stages (none at the default) is the model's choice
of log entry 3, the free bits and their stream are log entry 8, the register values log entry 27 (D21). -/
def Obligations.PowerOnState : Prop :=
  ∀ (p : Params) (stream : Nat),
    let s := State.powerOn p stream
    s.params = p ∧ s.life = .unbound ∧ s.total = 0 ∧ s.active = 0 ∧ s.pins = none ∧
      (∀ r, perRoleGet s.out.mode r = .unknown) ∧ (∀ r, perRoleGet s.out.level r = .unknown) ∧
      s.fault.code = 0 ∧ s.fault.info = none ∧ s.out.trace = [] ∧
      (∃ start, s.out.chain.s =
        (List.range (chainStages p.chainLength 0)).map fun i => Config.freeBit stream (start + i)) ∧
      (∃ start, s.out.chain.q =
        (List.range (chainStages p.chainLength 0)).map fun i => Config.freeBit stream (start + i)) ∧
      s.out.chain.j = 0 ∧ State.reset = State.powerOn Config.defaults 0

/-- The invariants hold at power-on, whatever the parameters. The empty sequencer is log entry 7's field, the chain's length
log entry 3's choice. -/
def Obligations.PowerOnMeetsInvariants : Prop :=
  ∀ (p : Params) (stream : Nat), BoundaryInv (State.powerOn p stream)

/-- Every step keeps the invariant of the block (R24 to R28, R97, R114), from every state that meets it. -/
def Obligations.StepKeepsInvariant : Prop := ∀ s t : State, Inv s → step s = .next t → Inv t

/-- A step of a block whose sequencer holds no micro-operation of its own keeps the command-boundary invariant: no
micro-operation is left over and no shift edge is left unlatched (J = 0). -/
def Obligations.StepKeepsCommandBoundary : Prop := ∀ s t : State, BoundaryInv s → step s = .next t → BoundaryInv t

/-- R22, R23: the counts fit in registers of bitlen(MAX_SERIAL_BITS) bits. -/
def Obligations.CountsFitTheirRegisters : Prop :=
  ∀ s : State, Inv s →
    s.total < 2 ^ bitlen s.params.maxSerialBits ∧ s.active < 2 ^ bitlen s.params.maxSerialBits

/-! ### Encoding and decoding -/

/-- Decoding the encoding of a well-formed instruction gives it back, with every operand, whatever ARG_WIDTH is. -/
def Obligations.DecodeOfEncode : Prop :=
  ∀ (n : Nat) (i : Instr), 1 ≤ n → wellFormed n i = true → decode (encode n i) = .ok i

/-- The other direction: a command that decodes is, but for side operands its opcode does not take, the encoding of what
it decodes to; a micro-operation code that decodes is exactly that. -/
def Obligations.EncodeOfDecode : Prop :=
  (∀ (c : Command) (i : Instr), decode (.command c) = .ok i →
    ∃ c', encode c.word.argWidth i = .command c' ∧ c'.word = c.word ∧
      (∀ p r, i = .construct p r → c'.pins = c.pins) ∧ (∀ b n, i = .transmit b n → c'.buf = c.buf)) ∧
  (∀ (u : MicroCode) (i : Instr) (n : Nat), decode (.micro u) = .ok i → encode n i = .micro u)

/-- R55: what a command word decodes to, by its opcode field, and that nothing else is rejected. -/
def Obligations.DecodeByOpcode : Prop :=
  ∀ c : Command,
    let opc := (c.word.bits >>> c.word.argWidth).toNat
    let arg := (BitVec.ofNat c.word.argWidth c.word.bits.toNat).toInt
    (opc = 0 → decode (.command c) = .ok (.construct c.pins arg)) ∧
      (opc = 1 → decode (.command c) = .ok (.transmit c.buf arg)) ∧
      (opc = 2 → decode (.command c) = .ok (.setActive arg)) ∧
      (opc = 3 → decode (.command c) = .ok (.destroy arg)) ∧
      (4 ≤ opc → decode (.command c) = .error (.reservedOpcode c.word))

/-- Whatever decodes is well formed: its argument is in the range of the word's field. -/
def Obligations.DecodedIsWellFormed : Prop :=
  (∀ (c : Command) (i : Instr), decode (.command c) = .ok i → wellFormed c.word.argWidth i = true) ∧
  (∀ (u : MicroCode) (i : Instr) (n : Nat), decode (.micro u) = .ok i → wellFormed n i = true)

/-- R56, R60: no command word decodes to a micro-operation, and no line of text assembles to one. Nor does a line assemble to
a command whose argument no word can hold: that it is rejected is the model's choice of log entry 29 (R50, U21). -/
def Obligations.HostCannotIssueMicroOps : Prop :=
  (∀ (c : Command) (i : Instr), decode (.command c) = .ok i → i ≠ .latch ∧ i ≠ .clear ∧ ∀ d, i ≠ .sendBit d) ∧
  (∀ n env line i, assembleLine n env line = .ok (some i) →
    wellFormed n i = true ∧ i ≠ .latch ∧ i ≠ .clear ∧ ∀ d, i ≠ .sendBit d)

/-- Words written out from the encoding tables (vectors L2-E for the commands, R56 for the micro-operations), and
one word of a block whose ARG_WIDTH is 12 (R49): a check of a few bits, not of all. -/
def Obligations.SpecWordsDecode : Prop :=
  ∀ (p : PinSet) (b : List Byte),
    decode (.command ⟨⟨32, 0x000000000C#40⟩, p, b⟩) = .ok (.construct p 12) ∧
      decode (.command ⟨⟨32, 0x00FFFFFFFF#40⟩, p, b⟩) = .ok (.construct p (-1)) ∧
      decode (.command ⟨⟨32, 0x017FFFFFFF#40⟩, p, b⟩) = .ok (.transmit b 2147483647) ∧
      decode (.command ⟨⟨32, 0x02FFFFFFFD#40⟩, p, b⟩) = .ok (.setActive (-3)) ∧
      decode (.command ⟨⟨32, 0x0280000000#40⟩, p, b⟩) = .ok (.setActive (-2147483648)) ∧
      decode (.command ⟨⟨32, 0x0312345678#40⟩, p, b⟩) = .ok (.destroy 0x12345678) ∧
      decode (.command ⟨⟨32, 0x0400000000#40⟩, p, b⟩) = .error (.reservedOpcode ⟨32, 0x0400000000#40⟩) ∧
      decode (.command ⟨⟨32, 0xFFFFFFFFFF#40⟩, p, b⟩) = .error (.reservedOpcode ⟨32, 0xFFFFFFFFFF#40⟩) ∧
      decode (.command ⟨⟨12, 0x01FFD#20⟩, p, b⟩) = .ok (.transmit b (-3)) ∧
      decode (.micro 0b001#3) = .ok (.sendBit true) ∧ decode (.micro 0b010#3) = .ok .latch ∧
      decode (.micro 0b011#3) = .ok .clear

/-- R58: the four-bit codes of all twelve events, and what SEND_BIT and LATCH are as strings of them; no two events share a
code, and 0xC to 0xF are no event. -/
def Obligations.EventCodesRoundTrip : Prop :=
  ([Role.sclk, Role.sdata, Role.lclk].flatMap fun r =>
    [PinAct.setMode .input, .setMode .output, .write .low, .write .high].map fun a => eventCode ⟨r, a⟩) =
      [0x0#4, 0x1#4, 0x2#4, 0x3#4, 0x4#4, 0x5#4, 0x6#4, 0x7#4, 0x8#4, 0x9#4, 0xA#4, 0xB#4] ∧
  (∀ d, (sendBitEvents d).map eventCode = sendBitTrace d) ∧ latchEvents.map eventCode = latchTrace ∧
  (∀ e : PinEvent, decodeEvent (eventCode e) = some e) ∧
  (∀ c : EventCode, decodeEvent c = none ↔ 12 ≤ c.toNat) ∧
  (∀ (c : EventCode) (e : PinEvent), decodeEvent c = some e → eventCode e = c)

/-- R7: an argument field of at least bitlen(MAX_SERIAL_BITS) + 1 bits carries every legal value of TOTAL and ACTIVE, with any
opcode; the parameters of every block meet that bound, so each command can be given each such count; the default is 32. -/
def Obligations.ArgumentWidthCarriesEveryCount : Prop :=
  (∀ (n maxBits v : Nat) (opc : Opcode), bitlen maxBits + 1 ≤ n → v ≤ maxBits →
    argField n (encodeWord n opc v) = v ∧ opcField n (encodeWord n opc v) = opc) ∧
  (∀ (p : Params) (v : Nat), v ≤ p.maxSerialBits →
    bitlen p.maxSerialBits + 1 ≤ p.argWidth ∧
      (∀ pins, wellFormed p.argWidth (.construct pins v) = true) ∧
      (∀ buf, wellFormed p.argWidth (.transmit buf v) = true) ∧ wellFormed p.argWidth (.setActive v) = true) ∧
  Config.defaults.argWidth = 32

/-- R50: the argument a word denotes lies in the two's-complement range of its field, which is read without scaling or
shifting: it is the field's unsigned value, less 2^n where the field's top bit is set. Every value is legal: every word with
one of the four opcodes decodes. -/
def Obligations.ArgumentIsSignExtended : Prop :=
  (∀ (n : Nat) (w : BitVec (n + 8)), 1 ≤ n →
    -(2 ^ (n - 1) : Int) ≤ argField n w ∧ argField n w ≤ 2 ^ (n - 1) - 1 ∧
      argField n w = (w.toNat % 2 ^ n : Nat) - (if w.getLsbD (n - 1) then (2 ^ n : Int) else 0)) ∧
  (∀ c : Command, (c.word.bits >>> c.word.argWidth).toNat ≤ 3 → ∃ i, decode (.command c) = .ok i)

/-! ### The step -/

/-- A step runs the decoded instruction: what stands first in the sequencer, else at the port, is taken off and run by
`exec`. That a micro-operation (R56) stands in a sequencer and runs by a step of its own, before the port, is the model's
choice (log entry 7); so is that nothing changes with nothing presented (log entry 6), and that a word that has not the block's
width is refused, being no command word of it (R49, log entry 4). -/
def Obligations.StepRunsTheDecodedInstruction : Prop :=
  ∀ s : State, ¬stopped s →
    (∀ u us i, s.useq = u :: us → decode (.micro u) = .ok i → step s = exec i { s with useq := us }) ∧
    (∀ c cs i, s.useq = [] → s.port = c :: cs → c.word.argWidth = s.params.argWidth → decode (.command c) = .ok i →
      step s = exec i { s with port := cs }) ∧
    (∀ c cs, s.useq = [] → s.port = c :: cs → c.word.argWidth ≠ s.params.argWidth →
      step s = .refused (.wordWidth c.word)) ∧
    (s.useq = [] → s.port = [] → step s = .next s)

/-- R54: a reserved opcode raises IllegalCommand with the command word as info and changes nothing else; the word has left
the port. -/
def Obligations.ReservedOpcodeRaisesIllegalCommand : Prop :=
  ∀ (s : State) (c : Command) (cs : List Command), ¬stopped s → s.useq = [] → s.port = c :: cs →
    c.word.argWidth = s.params.argWidth → 4 ≤ (c.word.bits >>> c.word.argWidth).toNat →
    step s = .next { s with port := cs, fault := { code := 1, info := some c.word } }

/-- R56, X3: a micro-operation code with U[2] set is refused by name. -/
def Obligations.ReservedMicroOpIsRefused : Prop :=
  ∀ (s : State) (u : MicroCode) (us : List MicroCode), ¬stopped s → s.useq = u :: us → 4 ≤ u.toNat →
    step s = .refused (.reservedMicroOp u)

/-! ### Faults -/

/-- R87, R88: every fault of a command at the port, in the order the rules check them, with its code and the command word
as info; under none of the conditions is a fault recorded; and a block that has already faulted takes no command. -/
def Obligations.FaultTable : Prop :=
  ∀ (s : State) (c : Command) (cs : List Command), s.useq = [] → s.port = c :: cs →
    c.word.argWidth = s.params.argWidth →
    let opc := (c.word.bits >>> c.word.argWidth).toNat
    let arg := (BitVec.ofNat c.word.argWidth c.word.bits.toNat).toInt
    let coincide := c.pins.sclk = c.pins.sdata ∨ c.pins.sclk = c.pins.lclk ∨ c.pins.sdata = c.pins.lclk
    let faulted (code : BitVec 3) := step s = .next { s with port := cs, fault := { code := code, info := some c.word } }
    (stopped s → step s = .fault (.stopped s.fault.code s.fault.info)) ∧
    (¬stopped s →
      (4 ≤ opc → faulted 1) ∧
      ((opc = 1 ∨ opc = 2 ∨ opc = 3) → s.life ≠ .live → faulted 2) ∧
      (opc = 0 → s.life = .live → faulted 3) ∧
      (opc = 0 → s.life ≠ .live → coincide → faulted 5) ∧
      (opc = 1 → s.life = .live → overruns s c.buf arg → faulted 4) ∧
      (opc = 0 → s.life ≠ .live → ¬coincide → ∀ t, step s = .next t → t.fault = s.fault) ∧
      (opc = 1 → s.life = .live → ¬overruns s c.buf arg → ∀ t, step s = .next t → t.fault = s.fault) ∧
      ((opc = 2 ∨ opc = 3) → s.life = .live → ∀ t, step s = .next t → t.fault = s.fault))

/-- The other half of R87: an instruction records a fault only under one of the table's conditions. -/
def Obligations.FaultOnlyByTable : Prop :=
  ∀ (i : Instr) (s t : State), exec i s = .next t → t.fault ≠ s.fault →
    (s.life ≠ .live ∧ t.fault.code = 2 ∧
      ((∃ b n, i = .transmit b n) ∨ (∃ n, i = .setActive n) ∨ ∃ a, i = .destroy a)) ∨
    (s.life = .live ∧ t.fault.code = 3 ∧ ∃ p r, i = .construct p r) ∨
    (s.life ≠ .live ∧ t.fault.code = 5 ∧ ∃ p r, i = .construct p r ∧ pinsAlias p) ∨
    (s.life = .live ∧ t.fault.code = 4 ∧ ∃ b n, i = .transmit b n ∧ overruns s b n)

/-- R89: a faulting command changes FAULT and nothing else (it has left the port), so it emits no event; and it reads no
buffer byte: what the buffer holds makes no difference, only its length. -/
def Obligations.FaultsArePrecise : Prop :=
  (∀ s t : State, step s = .next t → t.fault ≠ s.fault → t = { s with port := t.port, fault := t.fault }) ∧
  (∀ (i : Instr) (s t : State), exec i s = .next t → t.fault ≠ s.fault → t = { s with fault := t.fault }) ∧
  (∀ (buf buf' : List Byte) (n : Int) (s t : State), exec (.transmit buf n) s = .next t → t.fault ≠ s.fault →
    buf'.length = buf.length → exec (.transmit buf' n) s = .next t)

/-- R90: once FAULT.code is not 0 the block has no step and no instruction runs, so FAULT is never cleared and the pins and
the chain stay as they are; a new block starts with FAULT.code = 0. -/
def Obligations.StoppedBlockHasNoStep : Prop :=
  (∀ s : State, s.fault.code ≠ 0 →
    step s = .fault (.stopped s.fault.code s.fault.info) ∧
      ∀ i : Instr, exec i s = .fault (.stopped s.fault.code s.fault.info)) ∧
  ∀ (p : Params) (stream : Nat), (State.powerOn p stream).fault.code = 0

/-- R86: a faulted run is a failed run: it is never completed, and however long it is run on it ends in the fault. -/
def Obligations.FaultedRunNeverCompletes : Prop :=
  ∀ s : State, failed s → ¬completed s ∧
    ∀ k : Nat, steps (k + 1) s = .fault (.stopped s.fault.code s.fault.info)

/-! ### CONSTRUCT and DESTROY -/

/-- R61: CONSTRUCT. On a block with no live channel and three distinct pins it completes: registers, the trace (six set-up
events in an order that `SetUpAndReleaseOrder` gives, TOTAL zero bits, one latch pulse) and the pin state after it; all else
is unchanged (the chain is `ConstructClearsTheChain`). Its two faults, in order. -/
def Obligations.ConstructCompletes : Prop :=
  ∀ (s : State) (p : PinSet) (r : Int), ¬stopped s →
    let total := (min (max r 0) (s.params.maxSerialBits : Int)).toNat
    let word := commandWord s.params.argWidth 0x00#8 r
    (s.life = .live →
      exec (.construct p r) s = .next { s with fault := { code := 3, info := some word } }) ∧
    (s.life ≠ .live → (p.sclk = p.sdata ∨ p.sclk = p.lclk ∨ p.sdata = p.lclk) →
      exec (.construct p r) s = .next { s with fault := { code := 5, info := some word } }) ∧
    (s.life ≠ .live → p.sclk ≠ p.sdata → p.sclk ≠ p.lclk → p.sdata ≠ p.lclk →
      ∃ t, exec (.construct p r) s = .next t ∧
        t = { s with life := .live, total := total, active := total, pins := some p, out := t.out, draws := t.draws } ∧
        (∃ cs, cs.Perm setupTrace ∧ emitted s t p (cs ++ zerosTrace total ++ latchTrace)) ∧
        t.out.mode = ⟨.output, .output, .output⟩ ∧ t.out.level = ⟨.low, .low, .low⟩)

/-- R103, R105, R109: the chain after CONSTRUCT, for every N_CHAIN and both chain models. The set-up phase leaves free bits
drawn for it alone (log entry 8) and J = 0; the clear makes the first TOTAL stages 0, so all of them where N_CHAIN <= TOTAL.
Above them stage s holds what the set-up phase left at stage s - TOTAL under SHIFT, at stage s under FREEZE. Q equals S.
N_CHAIN follows log entry 3, the direction of the shift G1 (log entry 18). -/
def Obligations.ConstructClearsTheChain : Prop :=
  ∀ (s t : State) (p : PinSet) (r : Int), exec (.construct p r) s = .next t → t.fault = s.fault →
    let stages := chainStages s.params.chainLength t.total
    t.out.chain.q = t.out.chain.s ∧ t.out.chain.j = 0 ∧ t.out.chain.s.length = stages ∧
      (stages ≤ t.total → t.out.chain.s = List.replicate stages false) ∧
      ∃ start, s.draws ≤ start ∧ start + 2 * stages ≤ t.draws ∧
        ∀ k, k < stages →
          t.out.chain.s[k]? =
            some (if k < t.total then false
              else
                match s.params.chainModel with
                | .shift => Config.freeBit s.stream (start + (k - t.total))
                | .freeze => Config.freeBit s.stream (start + k))

/-- R63: DESTROY. On a live channel it completes, whatever its argument: TOTAL zero bits, one latch pulse, the three release
events in an order that `SetUpAndReleaseOrder` gives; MODE is INPUT throughout, LIFE is RELEASED, all else but the output
side is unchanged (LEVEL is `DestroyLevels`, the chain `DestroyClearsTheChain`). With no live channel it faults NoChannel. -/
def Obligations.DestroyCompletes : Prop :=
  ∀ (s : State) (a : Int), ¬stopped s →
    (s.life ≠ .live →
      exec (.destroy a) s =
        .next { s with fault := { code := 2, info := some (commandWord s.params.argWidth 0x03#8 a) } }) ∧
    (∀ p, s.life = .live → s.pins = some p →
      ∃ t, exec (.destroy a) s = .next t ∧
        t = { s with life := .released, out := t.out } ∧
        (∃ cs, cs.Perm releaseTrace ∧ emitted s t p (zerosTrace s.total ++ latchTrace ++ cs)) ∧
        t.out.mode = ⟨.input, .input, .input⟩)

/-- R110: LEVEL after DESTROY on a live channel: as before, but the data line is LOW if TOTAL > 0. -/
def Obligations.DestroyLevels : Prop :=
  ∀ (s t : State) (a : Int), LiveInv s → s.life = .live → exec (.destroy a) s = .next t →
    t.out.level = { s.out.level with sdata := if s.total = 0 then s.out.level.sdata else .low }

/-- R62, R64: the order within the set-up and the release phase, the spec's own choice (D9, D10), which no other statement
rests on; the pin state after the phases; and that a released channel emits nothing until a CONSTRUCT binds pins again. -/
def Obligations.SetUpAndReleaseOrder : Prop :=
  (∀ (s t : State) (p : PinSet) (r : Int), exec (.construct p r) s = .next t → t.fault = s.fault →
    ∃ cs, emitted s t p (setupTrace ++ cs)) ∧
  (∀ (model : ChainModel) (p : PinSet) (w : Output),
    let v := emitAll model p w setupEvents
    v.trace = w.trace ++ setupEvents.map (traceEvent p) ∧ setupEvents.map eventCode = setupTrace ∧
      v.mode = ⟨.output, .output, .output⟩ ∧ v.level = ⟨.low, .low, .low⟩) ∧
  (∀ (s t : State) (p : PinSet) (a : Int), s.pins = some p → exec (.destroy a) s = .next t → t.fault = s.fault →
    ∃ cs, emitted s t p (cs ++ releaseTrace)) ∧
  (∀ (model : ChainModel) (p : PinSet) (w : Output), (emitAll model p w releaseEvents).level = w.level) ∧
  (∀ s t : State, s.life = .released → step s = .next t →
    t.out = s.out ∨ ∃ c cs p r, s.port = c :: cs ∧ decode (.command c) = .ok (.construct p r) ∧
      t.pins = some p)

/-- R105, R106, R110: the chain after DESTROY, for every N_CHAIN and both chain models: the first TOTAL stages are 0, so all
of them where N_CHAIN <= TOTAL; above them stage s holds old stage s - TOTAL under SHIFT, and its own old value under FREEZE
(from J = 0). Q equals S: the release moves nothing, at the instant DESTROY ends (log entry 16). The direction of the shift
is G1 (log entry 18). -/
def Obligations.DestroyClearsTheChain : Prop :=
  ∀ (s t : State) (a : Int), Inv s → s.life = .live → exec (.destroy a) s = .next t →
    t.out.chain.q = t.out.chain.s ∧ t.out.chain.s.length = s.out.chain.s.length ∧
      (s.out.chain.s.length ≤ s.total → t.out.chain.s = List.replicate s.out.chain.s.length false) ∧
      ∀ k, k < s.out.chain.s.length → (s.params.chainModel = .freeze → s.out.chain.j = 0) →
        t.out.chain.s[k]? =
          if k < s.total then some false
          else
            match s.params.chainModel with
            | .shift => s.out.chain.s[k - s.total]?
            | .freeze => s.out.chain.s[k]?

/-- R53: every argument selects DESTROY and none has an effect (but in the word a fault records); the canonical word has
argument 0; the other commands read every bit of the word. -/
def Obligations.DestroyIgnoresItsArgument : Prop :=
  (∀ c : Command, (c.word.bits >>> c.word.argWidth).toNat = 3 → ∃ a, decode (.command c) = .ok (.destroy a)) ∧
  (∀ (s : State) (a b : Int), s.life = .live → exec (.destroy a) s = exec (.destroy b) s) ∧
  encode 32 (.destroy 0) = .command ⟨⟨32, 0x0300000000#40⟩, fillerPins, []⟩ ∧
  (∀ (c d : Command) (i : Instr), c.word.argWidth = d.word.argWidth → decode (.command c) = .ok i →
    decode (.command d) = .ok i → (∀ a, i ≠ .destroy a) → c.word = d.word)

/-! ### TRANSMIT -/

/-- R65 to R69 and R71: TRANSMIT. On a live channel it completes with exactly the data bits of the buffer's stream, least
significant bit first and byte 0 first, then ACTIVE - n zero bits, then one latch pulse; nothing but the output side
changes, and no mode. With no live channel, or with a short buffer under SHORT_BUFFER_POLICY = FAULT, it faults. -/
def Obligations.TransmitCompletes : Prop :=
  ∀ (s : State) (buf : List Byte) (b : Int), ¬stopped s →
    let n := dataOf s buf b
    let word := commandWord s.params.argWidth 0x01#8 b
    (s.life ≠ .live → exec (.transmit buf b) s = .next { s with fault := { code := 2, info := some word } }) ∧
    (s.life = .live → overruns s buf b →
      exec (.transmit buf b) s = .next { s with fault := { code := 4, info := some word } }) ∧
    (∀ p, s.life = .live → ¬overruns s buf b → s.pins = some p →
      ∃ t, exec (.transmit buf b) s = .next t ∧ t = { s with out := t.out } ∧ n ≤ s.active ∧
        emitted s t p
          ((List.range n).flatMap (fun k => sendBitTrace (bufBit buf k)) ++ zerosTrace (s.active - n) ++ latchTrace) ∧
        t.out.mode = s.out.mode)

/-- R70, R71: a TRANSMIT that does not fault emits exactly ACTIVE shift-clock pulses and exactly one latch pulse, and the
latch pulse is last. -/
def Obligations.TransmitPulsesExactlyActive : Prop :=
  ∀ (s t : State) (buf : List Byte) (b : Int), exec (.transmit buf b) s = .next t → t.fault = s.fault →
    ∃ es, t.out.trace = s.out.trace ++ es ∧
      (codes es).count 0x3#4 = s.active ∧ (codes es).count 0xB#4 = 1 ∧ ∃ fs, codes es = fs ++ latchTrace

/-- R73: the levels after a TRANSMIT. -/
def Obligations.TransmitLevels : Prop :=
  ∀ (s t : State) (buf : List Byte) (b : Int), Inv s → s.life = .live → exec (.transmit buf b) s = .next t →
    t.fault = s.fault →
    let n := dataOf s buf b
    t.out.level.sclk = .low ∧ t.out.level.lclk = .low ∧
      t.out.level.sdata =
        (if s.active = 0 then s.out.level.sdata
         else if n < s.active then .low
         else if bufBit buf (n - 1) then .high else .low)

/-- R38: bits above the count in the last byte and bytes beyond it make no difference: two buffers that agree on the data
bits (and give the same number of them) do the same. -/
def Obligations.TransmitIgnoresUnexaminedBits : Prop :=
  ∀ (s : State) (buf buf' : List Byte) (b : Int), dataOf s buf' b = dataOf s buf b →
    (∀ k, k < dataOf s buf b → bufBit buf' k = bufBit buf k) →
    exec (.transmit buf' b) s = exec (.transmit buf b) s

/-- R104: what every stage and every output holds after a TRANSMIT, under both chain models. The direction of the shift is
the spec's assumption (G1); under FREEZE it starts from J = 0. -/
def Obligations.TransmitMovesTheChain : Prop :=
  ∀ (s t : State) (buf : List Byte) (b : Int), LiveInv s → s.life = .live → s.out.chain.j = 0 →
    exec (.transmit buf b) s = .next t → t.fault = s.fault →
    let n := dataOf s buf b
    let sent (k : Nat) : Bool := if k < n then bufBit buf k else false
    t.out.chain.q = t.out.chain.s ∧ t.out.chain.j = 0 ∧ t.out.chain.s.length = s.out.chain.s.length ∧
      ∀ k, k < s.out.chain.s.length →
        t.out.chain.s[k]? =
          if k < s.active then some (sent (s.active - 1 - k))
          else
            match s.params.chainModel with
            | .shift => s.out.chain.s[k - s.active]?
            | .freeze => s.out.chain.s[k]?

/-- R60: a host that wants an all-zero chain sets ACTIVE to TOTAL and transmits an empty buffer: that sends TOTAL zero bits
and one latch pulse, and does to the pins and the chain what CLEAR does. -/
def Obligations.HostCanClearByTransmit : Prop :=
  ∀ (s : State) (p : PinSet), ¬stopped s → s.life = .live → s.pins = some p →
    ∃ t u v, exec (.setActive s.total) s = .next t ∧ exec (.transmit [] 0) t = .next u ∧ exec .clear s = .next v ∧
      u.out = v.out ∧ emitted s u p (zerosTrace s.total ++ latchTrace)

/-! ### SET_ACTIVE -/

/-- R79: SET_ACTIVE on a live channel writes ACTIVE, clamped to TOTAL, and changes nothing else: no event, nothing in the
chain. With no live channel it faults NoChannel. -/
def Obligations.SetActiveCompletes : Prop :=
  ∀ (s : State) (c : Int), ¬stopped s →
    (s.life = .live →
      exec (.setActive c) s = .next { s with active := (min (max c 0) (s.total : Int)).toNat }) ∧
    (s.life ≠ .live →
      exec (.setActive c) s = .next { s with fault := { code := 2, info := some (commandWord s.params.argWidth 0x02#8 c) } })

/-! ### The micro-operations -/

/-- R81: SEND_BIT on a live channel: three events, data first; the data line keeps the bit's level, the clock ends LOW. -/
def Obligations.SendBitCompletes : Prop :=
  ∀ (s : State) (p : PinSet) (d : Bool), ¬stopped s → s.life = .live → s.pins = some p →
    ∃ t, exec (.sendBit d) s = .next t ∧ t = { s with out := t.out } ∧ emitted s t p (sendBitTrace d) ∧
      t.out.mode = s.out.mode ∧
      t.out.level = { s.out.level with sclk := .low, sdata := if d then .high else .low }

/-- R98, R99, R102: the shift edge of SEND_BIT, stage by stage, under both chain models; the outputs do not change. The
direction of the shift is the spec's assumption (G1). -/
def Obligations.SendBitShiftsTheChain : Prop :=
  ∀ (s t : State) (d : Bool), LiveInv s → exec (.sendBit d) s = .next t →
    t.out.chain.q = s.out.chain.q ∧ t.out.chain.s.length = s.out.chain.s.length ∧
      t.out.chain.j = (match s.params.chainModel with
        | .shift => s.out.chain.j
        | .freeze => s.out.chain.j + 1) ∧
      ∀ k, k < s.out.chain.s.length →
        t.out.chain.s[k]? =
          if k = 0 then some d
          else
            match s.params.chainModel with
            | .shift => s.out.chain.s[k - 1]?
            | .freeze => if k ≤ s.out.chain.j then s.out.chain.s[k - 1]? else s.out.chain.s[k]?

/-- R82: LATCH on a live channel: two events; the latch line ends LOW, no other line moves, and the chain's shift register
does not move. -/
def Obligations.LatchCompletes : Prop :=
  ∀ (s : State) (p : PinSet), ¬stopped s → s.life = .live → s.pins = some p →
    ∃ t, exec .latch s = .next t ∧ t = { s with out := t.out } ∧ emitted s t p latchTrace ∧
      t.out.mode = s.out.mode ∧ t.out.level = { s.out.level with lclk := .low } ∧ t.out.chain.s = s.out.chain.s

/-- R100: the latch edge copies the whole shift register to the outputs and leaves the shift register; under FREEZE J goes
to 0. -/
def Obligations.LatchCopiesTheChain : Prop :=
  ∀ (s t : State), LiveInv s → exec .latch s = .next t →
    t.out.chain = { s := s.out.chain.s
                    q := s.out.chain.s
                    j := match s.params.chainModel with
                      | .shift => s.out.chain.j
                      | .freeze => 0 }

/-- R77: CLEAR on a live channel: TOTAL zero bits, whatever ACTIVE is, then one latch pulse. -/
def Obligations.ClearCompletes : Prop :=
  ∀ (s : State) (p : PinSet), ¬stopped s → s.life = .live → s.pins = some p →
    ∃ t, exec .clear s = .next t ∧ t = { s with out := t.out } ∧
      emitted s t p (zerosTrace s.total ++ latchTrace) ∧ t.out.mode = s.out.mode ∧ t.out.level.lclk = .low ∧
      (0 < s.total → t.out.level.sdata = .low ∧ t.out.level.sclk = .low) ∧
      (s.total = 0 → t.out.level.sdata = s.out.level.sdata ∧ t.out.level.sclk = s.out.level.sclk)

/-- R105: after a CLEAR with N_CHAIN <= TOTAL every stage and every output is 0 in either model; with more stages the first
TOTAL are 0, and the far ones hold what was pushed along under SHIFT, and what they held under FREEZE (R104, from J = 0). The
direction of the shift is G1 (log entry 18). -/
def Obligations.ClearZeroesTheChain : Prop :=
  ∀ (s t : State), LiveInv s → exec .clear s = .next t →
    t.out.chain.q = t.out.chain.s ∧ t.out.chain.s.length = s.out.chain.s.length ∧
      (s.out.chain.s.length ≤ s.total → t.out.chain.s = List.replicate s.out.chain.s.length false) ∧
      ∀ k, k < s.out.chain.s.length → (s.params.chainModel = .freeze → s.out.chain.j = 0) →
        t.out.chain.s[k]? =
          if k < s.total then some false
          else
            match s.params.chainModel with
            | .shift => s.out.chain.s[k - s.total]?
            | .freeze => s.out.chain.s[k]?

/-- R78: two CLEARs in a row leave the chain as one does, and their trace is the trace of one, twice. -/
def Obligations.ClearIsIdempotent : Prop :=
  ∀ (s : State) (p : PinSet), ¬stopped s → s.life = .live → s.pins = some p → LiveInv s →
    s.out.chain.s.length ≤ s.total →
    ∃ t u, exec .clear s = .next t ∧ exec .clear t = .next u ∧
      u.out.chain.s = t.out.chain.s ∧ u.out.chain.q = t.out.chain.q ∧
      ∃ cs, emitted s t p cs ∧ emitted s u p (cs ++ cs)

/-- R56, R77 (log entry 7): where no channel is live a micro-operation is refused by name. -/
def Obligations.MicroOpNeedsALiveChannel : Prop :=
  ∀ (s : State) (d : Bool), ¬stopped s → s.life ≠ .live →
    exec (.sendBit d) s = .refused .microOpOutsideChannel ∧ exec .latch s = .refused .microOpOutsideChannel ∧
      exec .clear s = .refused .microOpOutsideChannel

/-- R83: BYTE_TO_BITS gives the low bits of the byte, low bit first; the bits above the count make no difference. -/
def Obligations.ByteToBitsIsLowBitsFirst : Prop :=
  ∀ (x y : Byte) (cnt : Fin 9),
    byteToBits x cnt = (List.range cnt.val).map (fun i => x.getLsbD i) ∧
      ((∀ i, i < cnt.val → x.getLsbD i = y.getLsbD i) → byteToBits x cnt = byteToBits y cnt)

/-! ### Rules of the whole machine -/

/-- R21, R22, R23, R25: which instructions write which registers. No instruction writes the parameters, the commands still
to be presented, the sequencer or the stream of free bits; TOTAL and PINS are CONSTRUCT's, LIFE is CONSTRUCT's and DESTROY's,
ACTIVE is CONSTRUCT's and SET_ACTIVE's. -/
def Obligations.RegisterWriters : Prop :=
  ∀ (i : Instr) (s t : State), exec i s = .next t →
    t.params = s.params ∧ t.port = s.port ∧ t.useq = s.useq ∧ t.stream = s.stream ∧
      ((∀ p r, i ≠ .construct p r) → t.total = s.total ∧ t.pins = s.pins ∧ t.draws = s.draws) ∧
      ((∀ p r, i ≠ .construct p r) → (∀ a, i ≠ .destroy a) → t.life = s.life) ∧
      ((∀ p r, i ≠ .construct p r) → (∀ n, i ≠ .setActive n) → t.active = s.active)

/-- R29, R25, R64: a step only adds to the trace, and only events on the pins the block owns: those bound after the step,
where it was live before it or is live after it. A block with no live channel emits nothing. -/
def Obligations.OnlyOwnedPinsAreDriven : Prop :=
  ∀ s t : State, step s = .next t →
    ∃ es, t.out.trace = s.out.trace ++ es ∧
      (es = [] ∨
        ((s.life = .live ∨ t.life = .live) ∧
          ∃ p, t.pins = some p ∧ ∀ e ∈ es, e.pin = perRoleGet p e.event.role)) ∧
      (s.life ≠ .live → t.life ≠ .live → t.out = s.out)

/-- R16, R26, R27, R29: MODE and LEVEL follow the trace and nothing else: after a step each entry is what the last new event
that sets it gave, and is as before where no new event sets it. -/
def Obligations.PinStateFollowsTheTrace : Prop :=
  ∀ (s t : State) (es : List TraceEvent), step s = .next t → t.out.trace = s.out.trace ++ es →
    ∀ r : Role,
      let modes := es.filterMap fun e =>
        match e.event.act with
        | .setMode m => if e.event.role = r then some (modeReg m) else none
        | .write _ => none
      let levels := es.filterMap fun e =>
        match e.event.act with
        | .setMode _ => none
        | .write l => if e.event.role = r then some (levelReg l) else none
      perRoleGet t.out.mode r = modes.getLast?.getD (perRoleGet s.out.mode r) ∧
        perRoleGet t.out.level r = levels.getLast?.getD (perRoleGet s.out.level r)

/-- R113, R115 (and R98): in the events of any step from a command boundary, the data line is never written while the
shift clock is HIGH, the shift clock never rises while it or the latch line is HIGH, the latch line never rises while it
or the shift clock is HIGH, and no shift pulse follows the latch pulse. -/
def Obligations.PulseShapes : Prop :=
  ∀ (s t : State) (es : List TraceEvent), BoundaryInv s → step s = .next t → t.out.trace = s.out.trace ++ es →
    (∀ (k : Nat) (e : TraceEvent), es[k]? = some e →
      let level := ((es.take k).map (·.event)).foldl levelAfter s.out.level
      (∀ l, e.event = ⟨.sdata, .write l⟩ → level.sclk ≠ .high) ∧
      (e.event = ⟨.sclk, .write .high⟩ → level.sclk = .low ∧ level.lclk = .low ∧ level.sdata ≠ .unknown) ∧
      (e.event = ⟨.lclk, .write .high⟩ → level.lclk = .low ∧ level.sclk = .low)) ∧
    (∀ (k m : Nat) (e f : TraceEvent), es[k]? = some e → es[m]? = some f → k < m →
      e.event = ⟨.lclk, .write .high⟩ → f.event ≠ ⟨.sclk, .write .high⟩)

/-- R101: while the micro-operations of a TRANSMIT or a CLEAR run one at a time, the outputs keep their old values through
every SEND_BIT and change once, at the latch, to the new shift register. -/
def Obligations.OutputsChangeOnceAtTheLatch : Prop :=
  ∀ (s : State) (bits : List Bool), ¬stopped s → s.life = .live → LiveInv s →
    let run (k : Nat) := steps k { s with useq := shiftAndLatchCodes bits }
    (∀ k, k ≤ bits.length → ∃ t : State, run k = .next t ∧ t.out.chain.q = s.out.chain.q) ∧
    ∃ t : State, run (bits.length + 1) = .next t ∧ t.out.chain.q = t.out.chain.s

/-- R57, R30: running a command as one step does what running its micro-operations one step at a time does: TRANSMIT and
CLEAR as a whole, DESTROY as CLEAR and then the release, CONSTRUCT as the set-up, which leaves the chain redrawn (R103, log
entry 8), and then CLEAR. -/
def Obligations.CommandsRefineMicroOps : Prop :=
  ∀ (s : State), ¬stopped s → s.useq = [] →
    (∀ p buf b, s.life = .live → s.pins = some p → ¬overruns s buf b →
      exec (.transmit buf b) s = steps (s.active + 1) { s with useq := expansion s (.transmit buf b) }) ∧
    (∀ p, s.life = .live → s.pins = some p →
      exec .clear s = steps (s.total + 1) { s with useq := expansion s .clear }) ∧
    (∀ p a, s.life = .live → s.pins = some p →
      ∃ u, steps 1 { s with useq := expansion s (.destroy a) } = .next u ∧
        exec (.destroy a) s = .next { emitState u p releaseEvents with life := .released }) ∧
    (∀ p r, s.life ≠ .live → ¬pinsAlias p →
      ∃ u, u.useq = expansion s (.construct p r) ∧ (∃ cs, cs.Perm setupTrace ∧ emitted s u p cs) ∧ u.life = .live ∧
        (let stages := chainStages s.params.chainLength u.total
         ∃ start, s.draws ≤ start ∧ start + 2 * stages ≤ u.draws ∧ u.out.chain.j = 0 ∧
          u.out.chain.s = (List.range stages).map (fun i => Config.freeBit s.stream (start + i)) ∧
          u.out.chain.q = (List.range stages).map (fun i => Config.freeBit s.stream (start + stages + i))) ∧
        exec (.construct p r) s = steps 1 u)

/-- R10, R97: the block does not depend on the chain: two states that agree but for the chain, its model, its length and
its free values step to states that agree but for those. -/
def Obligations.ChainNeverAffectsTheBlock : Prop :=
  ∀ s t : State, withoutChain s = withoutChain t →
    mapNext withoutChain (step s) = mapNext withoutChain (step t)

/-- R11: the block uses pin identifiers for nothing but equality: renaming them by an injective function before a step or
after it is the same. -/
def Obligations.PinIdentifiersAreOpaque : Prop :=
  ∀ (f : PinId → PinId), Function.Injective f → ∀ s : State,
    step (renameState f s) = mapNext (renameState f) (step s)

/-- R100 (D29, U14, log entry 20): an edge-triggered and a level-triggered latch leave the same output side after every
instruction that does not fault: after a run of bits and its latch pulse from any state with the latch line LOW, and so after
each command and micro-operation, CONSTRUCT's set-up with the redraw and DESTROY's release events among them. -/
def Obligations.EdgeAndLevelLatchAgree : Prop :=
  (∀ (model : ChainModel) (p : PinSet) (w : Output) (bits : List Bool), w.level.lclk = .low →
    emitAllLevel model p w (shiftAndLatchEvents bits) = emitAll model p w (shiftAndLatchEvents bits)) ∧
  (∀ (i : Instr) (s t : State) (p : PinSet), Inv s → exec i s = .next t → t.fault = s.fault → t.pins = some p →
    t.out = levelOutput s p i)

/-- R119: the number of events of each instruction that does not fault. -/
def Obligations.EventCounts : Prop :=
  ∀ (i : Instr) (s t : State), exec i s = .next t → t.fault = s.fault →
    t.out.trace.length = s.out.trace.length +
      match i with
      | .construct _ _ => 6 + 3 * t.total + 2
      | .transmit _ _ => 3 * s.active + 2
      | .setActive _ => 0
      | .destroy _ => 3 * s.total + 2 + 3
      | .sendBit _ => 3
      | .latch => 2
      | .clear => 3 * s.total + 2

/-- R43: commands take effect in the order the host issues them: running the first few and then the rest is running them
all, so all events of one precede all events of the next. -/
def Obligations.CommandsTakeEffectInOrder : Prop :=
  ∀ (s t : State) (cs ds : List Command), BoundaryInv s → s.port = [] →
    steps cs.length (issue s cs) = .next t →
    steps (cs.length + ds.length) (issue s (cs ++ ds)) = steps ds.length (issue t ds)

/-! ### Several channels -/

/-- R107: several blocks share nothing: a step of one leaves every other as it was, and before it and after it no pin has two
owners; where two blocks own one pin no step is given a meaning (U12, log entry 15). -/
def Obligations.ChannelsAreIndependent : Prop :=
  (∀ (blocks after : List State) (k : Fin blocks.length), systemStep blocks k = .next after →
    after.length = blocks.length ∧ (∀ j : Nat, j ≠ k.val → after[j]? = blocks[j]?) ∧
      (∃ s, step blocks[k] = .next s ∧ after[k.val]? = some s) ∧
      ∀ (i j : Nat) (a b : State), i ≠ j →
        (after[i]? = some a → after[j]? = some b → ∀ pin, pin ∈ ownedPins a → pin ∉ ownedPins b) ∧
        (blocks[i]? = some a → blocks[j]? = some b → ∀ pin, pin ∈ ownedPins a → pin ∉ ownedPins b)) ∧
  (∀ (blocks : List State) (k : Fin blocks.length) (i j : Nat) (a b : State) (pin : PinId), i ≠ j →
    blocks[i]? = some a → blocks[j]? = some b → pin ∈ ownedPins a → pin ∈ ownedPins b →
    systemStep blocks k = .refused .sharedPin)

/-- From no block at all, powering on a new block (R90, R108) and every step keep the blocks apart: no pin has two owners, and
each block draws its chain's any values from a stream of its own. R107 makes disjoint pin sets the caller's duty and enforces
nothing: that a step keeps them is the model's choice, which refuses the other steps (log entry 15), and the streams are the
model's too (log entry 8). -/
def Obligations.BlocksStayApart : Prop :=
  SystemInv [] ∧ (∀ (blocks : List State) (p : Params), SystemInv blocks → SystemInv (addBlock blocks p)) ∧
    (∀ (blocks after : List State) (k : Fin blocks.length), SystemInv blocks → systemStep blocks k = .next after →
      SystemInv after)

/-! ### Text -/

/-- R59: lines of each form, in decimal, hexadecimal and binary, with a sign and with a comment. A check of a few lines. -/
def Obligations.SpecLinesAssemble : Prop :=
  let a := ['a']
  let b := ['b']
  let c := ['c']
  let env : List (List Char × PinId) := [(a, ⟨7⟩), (b, ⟨8⟩), (c, ⟨9⟩)]
  assembleLine 32 env "CONSTRUCT a, b, c, 12 ; all".toList = .ok (some (.construct ⟨⟨7⟩, ⟨8⟩, ⟨9⟩⟩ 12)) ∧
    assembleLine 32 env "TRANSMIT [0xFF, 0b1111], 12".toList = .ok (some (.transmit [0xFF#8, 0x0F#8] 12)) ∧
    assembleLine 32 env "TRANSMIT [], 0".toList = .ok (some (.transmit [] 0)) ∧
    assembleLine 32 env "SET_ACTIVE -3".toList = .ok (some (.setActive (-3))) ∧
    assembleLine 32 env "DESTROY".toList = .ok (some (.destroy 0)) ∧
    assembleLine 32 env "CLEAR".toList = .error .unknownMnemonic ∧
    assembleLine 32 env "; nothing".toList = .ok none
end

