-- ==== Sys2Proof/Laws/Chain.lean ====
section
/-!
SUPPORT. What shift edges and latch edges do to the chain (R99, R100, R102): lengths, and the closed form of a run of shift
edges that R104 and R105 rest on.
-/

namespace Sys2Proof.Machine

/-- Shift edges one after another. -/
def Chain.shiftAll (model : ChainModel) (bits : List Bool) (c : Chain) : Chain :=
  bits.foldl (fun c d => c.shiftEdge model d) c

theorem shiftAll_cons (model : ChainModel) (d : Bool) (ds : List Bool) (c : Chain) :
    c.shiftAll model (d :: ds) = (c.shiftEdge model d).shiftAll model ds := rfl

theorem shiftEdge_q (model : ChainModel) (d : Bool) (c : Chain) : (c.shiftEdge model d).q = c.q := by
  cases model <;> rfl

theorem shiftEdge_s_length (model : ChainModel) (d : Bool) (c : Chain) :
    (c.shiftEdge model d).s.length = c.s.length := by
  cases model
  · simp [Chain.shiftEdge]
  · simp [Chain.shiftEdge]; omega

theorem latchEdge_s (model : ChainModel) (c : Chain) : (c.latchEdge model).s = c.s := by
  cases model <;> rfl

theorem latchEdge_q (model : ChainModel) (c : Chain) : (c.latchEdge model).q = c.s := by
  cases model <;> rfl

theorem shiftAll_q (model : ChainModel) (bits : List Bool) (c : Chain) : (c.shiftAll model bits).q = c.q := by
  induction bits generalizing c with
  | nil => rfl
  | cons d ds ih => rw [shiftAll_cons, ih, shiftEdge_q]

theorem shiftAll_s_length (model : ChainModel) (bits : List Bool) (c : Chain) :
    (c.shiftAll model bits).s.length = c.s.length := by
  induction bits generalizing c with
  | nil => rfl
  | cons d ds ih => rw [shiftAll_cons, ih, shiftEdge_s_length]

theorem shiftAll_j_shift (bits : List Bool) (c : Chain) : (c.shiftAll .shift bits).j = c.j := by
  induction bits generalizing c with
  | nil => rfl
  | cons d ds ih => rw [shiftAll_cons, ih]; rfl

theorem shiftAll_j_freeze (bits : List Bool) (c : Chain) : (c.shiftAll .freeze bits).j = c.j + bits.length := by
  induction bits generalizing c with
  | nil => rfl
  | cons d ds ih => rw [shiftAll_cons, ih]; simp [Chain.shiftEdge]; omega

/-- Under SHIFT, a run of shift edges puts the last bit at stage 0 and pushes the rest of the chain along (R99). -/
theorem shiftAll_s_shift (bits : List Bool) (c : Chain) :
    (c.shiftAll .shift bits).s = (bits.reverse ++ c.s).take c.s.length := by
  induction bits generalizing c with
  | nil => simp [Chain.shiftAll]
  | cons d ds ih =>
    rw [shiftAll_cons, ih]
    have hl : (c.shiftEdge .shift d).s.length = c.s.length := shiftEdge_s_length _ _ _
    rw [hl]
    simp only [Chain.shiftEdge, List.reverse_cons, List.append_assoc, List.singleton_append, List.take_append,
      List.take_take]
    congr 2
    omega

/-- A shift edge under FREEZE, stage by stage (R102). -/
theorem shiftEdge_freeze_getElem? (d : Bool) (c : Chain) {k : Nat} (hk : k < c.s.length) :
    (c.shiftEdge .freeze d).s[k]? =
      if k = 0 then some d else if k ≤ c.j then c.s[k - 1]? else c.s[k]? := by
  cases k with
  | zero => simp [Chain.shiftEdge, hk]
  | succ m =>
    by_cases hj : m + 1 ≤ c.j
    · have h1 : m < c.j := by omega
      have h2 : m < c.s.length := by omega
      simp [Chain.shiftEdge, hk, hj, List.getElem?_append, h1, h2]
    · have h1 : min c.j c.s.length = c.j := by omega
      have h2 : ¬ m < c.j := by omega
      have h3 : c.j + 1 + (m - c.j) = m + 1 := by omega
      simp [Chain.shiftEdge, hk, hj, List.getElem?_append, h1, h2, h3]

/-- Under FREEZE, a run of shift edges shifts the stages counted so far and one more for each edge; the stages above them
keep their bits (R102). -/
theorem shiftAll_freeze_getElem? (bits : List Bool) (c : Chain) {k : Nat} (hk : k < c.s.length) :
    (c.shiftAll .freeze bits).s[k]? =
      if k < bits.length then bits[bits.length - 1 - k]?
      else if k < c.j + bits.length then c.s[k - bits.length]? else c.s[k]? := by
  induction bits generalizing c with
  | nil => simp [Chain.shiftAll]
  | cons d ds ih =>
    have hl : (c.shiftEdge .freeze d).s.length = c.s.length := shiftEdge_s_length _ _ _
    have hj : (c.shiftEdge .freeze d).j = c.j + 1 := rfl
    have hm : k - ds.length < c.s.length := by omega
    rw [shiftAll_cons, ih _ (by omega), hj, shiftEdge_freeze_getElem? d c hm, shiftEdge_freeze_getElem? d c hk,
      List.length_cons]
    by_cases h1 : k < ds.length
    · have : ds.length + 1 - 1 - k = (ds.length - 1 - k) + 1 := by omega
      rw [if_pos h1, if_pos (by omega), this, List.getElem?_cons_succ]
    · rw [if_neg h1]
      by_cases h2 : k < ds.length + 1
      · have h0 : k - ds.length = 0 := by omega
        have h0' : ds.length + 1 - 1 - k = 0 := by omega
        rw [if_pos (by omega), if_pos h0, if_pos h2, h0', List.getElem?_cons_zero]
      · have hs : k - ds.length - 1 = k - (ds.length + 1) := by omega
        rw [if_neg h2]
        by_cases h3 : k < c.j + (ds.length + 1)
        · rw [if_pos (by omega), if_neg (by omega), if_pos (by omega), if_pos h3, hs]
        · rw [if_neg (by omega), if_neg (by omega), if_neg (by omega), if_neg h3]

/-- Under SHIFT, stage by stage (R99). -/
theorem shiftAll_shift_getElem? (bits : List Bool) (c : Chain) {k : Nat} (hk : k < c.s.length) :
    (c.shiftAll .shift bits).s[k]? =
      if k < bits.length then bits[bits.length - 1 - k]? else c.s[k - bits.length]? := by
  rw [shiftAll_s_shift, List.getElem?_take, if_pos hk, List.getElem?_append, List.length_reverse]
  split
  · rename_i h; rw [List.getElem?_reverse h]
  · rfl

/-- Zeros shifted in, stage by stage, in either model, under FREEZE from J = 0 (R104, R105). -/
theorem shiftAll_zeros_getElem? (model : ChainModel) (c : Chain) (n : Nat) {k : Nat} (hk : k < c.s.length) :
    (model = .freeze → c.j = 0) →
      (c.shiftAll model (List.replicate n false)).s[k]? =
        if k < n then some false
        else
          match model with
          | .shift => c.s[k - n]?
          | .freeze => c.s[k]? := by
  intro hj
  have hrep : k < n → (List.replicate n false)[n - 1 - k]? = some false := fun h => by
    rw [List.getElem?_replicate, if_pos (by omega)]
  cases model with
  | shift =>
    rw [shiftAll_shift_getElem? _ _ hk, List.length_replicate]
    split
    · exact hrep ‹_›
    · rfl
  | freeze =>
    rw [shiftAll_freeze_getElem? _ _ hk, List.length_replicate, hj rfl]
    split
    · exact hrep ‹_›
    · rw [if_neg (by omega)]

/-- Zeros shifted in reach every stage of a chain no longer than the run, in either model (R105). -/
theorem shiftAll_zeros (model : ChainModel) (c : Chain) {n : Nat} (hn : c.s.length ≤ n) :
    (c.shiftAll model (List.replicate n false)).s = List.replicate c.s.length false := by
  apply List.ext_getElem?
  intro k
  by_cases hk : k < c.s.length
  · have h1 : k < n := by omega
    have h2 : n - 1 - k < n := by omega
    cases model
    · rw [shiftAll_shift_getElem? _ _ hk]; simp [h1, h2, hk]
    · rw [shiftAll_freeze_getElem? _ _ hk]; simp [h1, h2, hk]
  · rw [List.getElem?_eq_none (by rw [shiftAll_s_length]; omega), List.getElem?_eq_none (by simp; omega)]

end Sys2Proof.Machine
end

