-- ==== Sys2Proof/Laws/Decode.lean ====
section
/-!
SUPPORT. The fields of an encoded command word, for every argument width (R49, R50), and what decoding answers.
-/

namespace Sys2Proof

theorem opcField_encodeWord (n : Nat) (opc : Opcode) (arg : Int) : opcField n (encodeWord n opc arg) = opc := by
  apply BitVec.eq_of_getLsbD_eq
  intro i hi
  have h1 : ¬ n + i < n := by omega
  have h2 : n + i < n + 8 := by omega
  simp [opcField, encodeWord, hi]

theorem argField_encodeWord {n : Nat} (hn : 0 < n) (opc : Opcode) {arg : Int} (h : argFits n arg = true) :
    argField n (encodeWord n opc arg) = arg := by
  have hw : (encodeWord n opc arg).setWidth n = BitVec.ofInt n arg := by
    apply BitVec.eq_of_getLsbD_eq
    intro i hi
    simp [encodeWord, hi]
  simp only [argFits, Bool.and_eq_true, decide_eq_true_eq] at h
  rw [argField, sext, hw, BitVec.toInt_ofInt]
  have hp : (2 : Int) ^ n = 2 * 2 ^ (n - 1) := by
    obtain ⟨m, rfl⟩ : ∃ m, n = m + 1 := ⟨n - 1, by omega⟩
    simp [pow_succ]; ring
  apply Int.bmod_eq_of_le <;> push_cast <;> rw [hp] <;> omega

theorem argField_fits {n : Nat} (w : BitVec (n + 8)) : argFits n (argField n w) = true := by
  have h1 := BitVec.le_toInt (w.setWidth n)
  have h2 := BitVec.toInt_lt (x := w.setWidth n)
  simp only [argFits, argField, sext, Bool.and_eq_true]
  exact ⟨decide_eq_true h1, decide_eq_true h2⟩

/-- A word is the encoding of its two fields. -/
theorem encodeWord_fields {n : Nat} (w : BitVec (n + 8)) : encodeWord n (opcField n w) (argField n w) = w := by
  apply BitVec.eq_of_getLsbD_eq
  intro i hi
  have hof : BitVec.ofInt n (argField n w) = w.setWidth n := BitVec.ofInt_toInt
  by_cases h : i < n
  · simp [encodeWord, hof, hi, h]
  · have h8 : i - n < 8 := by omega
    have hni : n + (i - n) = i := by omega
    simp [encodeWord, opcField, hof, hi, h, h8, hni]

/-- What decoding a command answers: one of the four commands, by its opcode, or the rejection of a reserved one (R55). -/
theorem decodeCommand_cases {c : Command} {i : Instr} (h : decodeCommand c = .ok i) :
    (wordOpc c.word = opcConstruct ∧ i = .construct c.pins (wordArg c.word)) ∨
    (wordOpc c.word = opcTransmit ∧ i = .transmit c.buf (wordArg c.word)) ∨
    (wordOpc c.word = opcSetActive ∧ i = .setActive (wordArg c.word)) ∨
    (wordOpc c.word = opcDestroy ∧ i = .destroy (wordArg c.word)) := by
  simp only [decodeCommand] at h
  split at h
  · rename_i ho; cases h; exact .inl ⟨ho, rfl⟩
  split at h
  · rename_i ho; cases h; exact .inr (.inl ⟨ho, rfl⟩)
  split at h
  · rename_i ho; cases h; exact .inr (.inr (.inl ⟨ho, rfl⟩))
  split at h
  · rename_i ho; cases h; exact .inr (.inr (.inr ⟨ho, rfl⟩))
  · cases h

/-- The bits above the argument are the opcode field (R49). -/
theorem wordOpc_toNat (w : CommandWord) : (wordOpc w).toNat = (w.bits >>> w.argWidth).toNat := by
  have hw : w.bits.toNat / 2 ^ w.argWidth < 2 ^ 8 := by
    rw [Nat.div_lt_iff_lt_mul (by positivity), Nat.mul_comm, ← pow_add]; exact w.bits.isLt
  simp only [wordOpc, opcField, BitVec.extractLsb'_toNat, BitVec.toNat_ushiftRight, Nat.shiftRight_eq_div_pow]
  exact Nat.mod_eq_of_lt hw

/-- A word whose bits above the argument spell an opcode has that opcode field (R49). -/
theorem wordOpc_of_shift {w : CommandWord} {opc : Opcode} (h : (w.bits >>> w.argWidth).toNat = opc.toNat) :
    wordOpc w = opc :=
  BitVec.eq_of_toNat_eq ((wordOpc_toNat w).trans h)

/-- The opcode and the argument of a word make the word again: what FAULT.info records is the word presented (R87). -/
theorem commandWord_fields {w : CommandWord} {opc : Opcode} (h : wordOpc w = opc) :
    commandWord w.argWidth opc (wordArg w) = w := by
  rw [← h, commandWord, wordOpc, wordArg, encodeWord_fields]

theorem wordOpc_commandWord (n : Nat) (opc : Opcode) (arg : Int) : wordOpc (commandWord n opc arg) = opc :=
  opcField_encodeWord n opc arg

theorem wordArg_commandWord {n : Nat} (hn : 0 < n) (opc : Opcode) {arg : Int} (h : argFits n arg = true) :
    wordArg (commandWord n opc arg) = arg :=
  argField_encodeWord hn opc h

theorem decodeCommand_construct {c : Command} (h : wordOpc c.word = opcConstruct) :
    decodeCommand c = .ok (.construct c.pins (wordArg c.word)) := by
  simp [decodeCommand, h]

theorem decodeCommand_transmit {c : Command} (h : wordOpc c.word = opcTransmit) :
    decodeCommand c = .ok (.transmit c.buf (wordArg c.word)) := by
  simp [decodeCommand, h, opcConstruct, opcTransmit]

theorem decodeCommand_setActive {c : Command} (h : wordOpc c.word = opcSetActive) :
    decodeCommand c = .ok (.setActive (wordArg c.word)) := by
  simp [decodeCommand, h, opcConstruct, opcTransmit, opcSetActive]

theorem decodeCommand_destroy {c : Command} (h : wordOpc c.word = opcDestroy) :
    decodeCommand c = .ok (.destroy (wordArg c.word)) := by
  simp [decodeCommand, h, opcConstruct, opcTransmit, opcSetActive, opcDestroy]

theorem decodeCommand_reserved {c : Command} (h : 4 ≤ (c.word.bits >>> c.word.argWidth).toNat) :
    decodeCommand c = .error (.reservedOpcode c.word) := by
  rw [← wordOpc_toNat] at h
  have hne : ∀ opc : Opcode, opc.toNat < 4 → wordOpc c.word ≠ opc := by
    intro opc ho he
    rw [he] at h
    omega
  simp [decodeCommand, hne opcConstruct (by decide), hne opcTransmit (by decide), hne opcSetActive (by decide),
    hne opcDestroy (by decide)]

/-- What decoding a micro-operation code answers (R56). -/
theorem decodeMicro_cases {u : MicroCode} {i : Instr} (h : decodeMicro u = .ok i) :
    (∃ d, u = sendBitCode d ∧ i = .sendBit d) ∨ (u = latchCode ∧ i = .latch) ∨ (u = clearCode ∧ i = .clear) := by
  simp only [decodeMicro] at h
  split at h
  · rename_i hu; cases h; exact .inl ⟨false, hu, rfl⟩
  split at h
  · rename_i hu; cases h; exact .inl ⟨true, hu, rfl⟩
  split at h
  · rename_i hu; cases h; exact .inr (.inl ⟨hu, rfl⟩)
  split at h
  · rename_i hu; cases h; exact .inr (.inr ⟨hu, rfl⟩)
  · cases h

end Sys2Proof
end

