-- ==== Sys2Proof/Laws/Operands.lean ====
section
/-!
SUPPORT. What the clamps and counts of R13, R66 and R67 are bounded by, what BYTE_TO_BITS and the byte stream give, and
that the groups of R65 send the stream of R34.
-/

namespace Sys2Proof.Machine

theorem clampCount_le (x : Int) (hi : Nat) : clampCount x hi ≤ hi := by
  unfold clampCount clamp; omega

theorem clampCount_of_nonneg (x hi : Nat) : clampCount x hi = min x hi := by
  unfold clampCount clamp; omega

theorem clampCount_eq_of_le {x : Int} {hi : Nat} (h : (hi : Int) ≤ x) : clampCount x hi = hi := by
  unfold clampCount clamp; omega

theorem clampCount_eq_zero {x : Int} {hi : Nat} (h : x ≤ 0) : clampCount x hi = 0 := by
  unfold clampCount clamp; omega

theorem dataCount_le_active (active : Nat) (buf : List Byte) (bitCount : Int) :
    dataCount active buf bitCount ≤ active := by
  have := clampCount_le bitCount active
  unfold dataCount effectiveBits; omega

theorem dataCount_le_buffer (active : Nat) (buf : List Byte) (bitCount : Int) :
    dataCount active buf bitCount ≤ 8 * buf.length := by
  unfold dataCount; omega

theorem shiftOut_eq (x : Byte) (cnt : Nat) : shiftOut x cnt = (List.range cnt).map fun i => x.getLsbD i := by
  induction cnt generalizing x with
  | zero => rfl
  | succ n ih =>
    rw [shiftOut, ih, List.range_succ_eq_map]
    simp [Function.comp_def, Nat.add_comm]

/-- Bit k of the stream, false past the end of the buffer: the bit R34 gives for `k < 8 L`. -/
def bitAt (buf : List Byte) (k : Nat) : Bool := (streamBit buf k).getD false

theorem streamBit_eq_bitAt {buf : List Byte} {k : Nat} (h : k < 8 * buf.length) :
    streamBit buf k = some (bitAt buf k) := by
  have hk : k / 8 < buf.length := by omega
  simp [bitAt, streamBit, bufRead, List.getElem?_eq_getElem hk]

theorem bitAt_cons_low (b : Byte) (bs : List Byte) {k : Nat} (h : k < 8) : bitAt (b :: bs) k = b.getLsbD k := by
  have h0 : k / 8 = 0 := by omega
  have h1 : k % 8 = k := by omega
  simp [bitAt, streamBit, bufRead, h0, h1]

theorem bitAt_cons_high (b : Byte) (bs : List Byte) (k : Nat) : bitAt (b :: bs) (8 + k) = bitAt bs k := by
  have h0 : (8 + k) / 8 = k / 8 + 1 := by omega
  have h1 : (8 + k) % 8 = k % 8 := by omega
  simp [bitAt, streamBit, bufRead, h0, h1]

/-- The groups of R65 taken one byte at a time. -/
theorem groups_eq (buf : List Byte) (n g : Nat) (h : n ≤ 8 * (g + buf.length)) :
    ((buf.take (ceil8 n - g)).zipIdx g).flatMap (fun bg => byteToBits bg.1 (groupCount n bg.2)) =
      (List.range (n - 8 * g)).map (bitAt buf) := by
  induction buf generalizing g with
  | nil =>
    have : n - 8 * g = 0 := by simp at h; omega
    simp [this]
  | cons b bs ih =>
    by_cases hg : n ≤ 8 * g
    · have h0 : n - 8 * g = 0 := by omega
      have h1 : ceil8 n - g = 0 := by unfold ceil8; omega
      simp [h0, h1]
    · have h1 : ceil8 n - g = (ceil8 n - (g + 1)) + 1 := by unfold ceil8; omega
      have hlen : n ≤ 8 * (g + 1 + bs.length) := by simp at h; omega
      have hsplit : n - 8 * g = min 8 (n - 8 * g) + (n - 8 * (g + 1)) := by omega
      rw [h1, List.take_succ_cons, List.zipIdx_cons, List.flatMap_cons, ih (g + 1) hlen]
      conv_rhs => rw [hsplit, List.range_add, List.map_append]
      congr 1
      · rw [byteToBits, shiftOut_eq]
        apply List.map_congr_left
        intro k hk
        have : k < 8 := by simp [groupCount] at hk; omega
        exact (bitAt_cons_low b bs this).symm
      · rw [List.map_map]
        apply List.map_congr_left
        intro k hk
        have h8 : min 8 (n - 8 * g) = 8 := by simp at hk; omega
        simp only [Function.comp, h8]
        exact (bitAt_cons_high b bs k).symm

/-- The data bits are the stream of R34: data bit k is bit k mod 8 of byte k div 8 (R68). -/
theorem dataBits_eq {buf : List Byte} {n : Nat} (h : n ≤ 8 * buf.length) :
    dataBits buf n = (List.range n).map (bitAt buf) := by
  have := groups_eq buf n 0 (by omega)
  simpa [dataBits] using this

theorem sentBits_eq (active : Nat) (buf : List Byte) (bitCount : Int) :
    sentBits active buf bitCount =
      (List.range (dataCount active buf bitCount)).map (bitAt buf) ++
        List.replicate (active - dataCount active buf bitCount) false := by
  simp only [sentBits, dataBits_eq (dataCount_le_buffer active buf bitCount)]

theorem sentBits_length (active : Nat) (buf : List Byte) (bitCount : Int) :
    (sentBits active buf bitCount).length = active := by
  have := dataCount_le_active active buf bitCount
  rw [sentBits_eq]; simp; omega

end Sys2Proof.Machine
end

