-- ==== Sys2Proof/Laws/Output.lean ====
section
/-!
SUPPORT. What emitting events does (R16): the trace grows by exactly those events, MODE and LEVEL follow them, and while the
pins are outputs and both pulse lines are LOW each SEND_BIT is one shift edge and each LATCH one latch edge (R98).
-/

namespace Sys2Proof.Machine

variable (model : ChainModel) (p : PinSet)

@[simp] theorem emit_trace (w : Output) (e : PinEvent) :
    (emit model p w e).trace = w.trace ++ [traceEvent p e] := rfl
@[simp] theorem emit_mode (w : Output) (e : PinEvent) : (emit model p w e).mode = modeAfter w.mode e := rfl
@[simp] theorem emit_level (w : Output) (e : PinEvent) : (emit model p w e).level = levelAfter w.level e := rfl
@[simp] theorem emit_chain (w : Output) (e : PinEvent) :
    (emit model p w e).chain = w.chain.observe model w.mode w.level e := rfl

theorem emitAll_nil (w : Output) : emitAll model p w [] = w := rfl

theorem emitAll_cons (w : Output) (e : PinEvent) (es : List PinEvent) :
    emitAll model p w (e :: es) = emitAll model p (emit model p w e) es := rfl

theorem emitAll_append (w : Output) (es fs : List PinEvent) :
    emitAll model p w (es ++ fs) = emitAll model p (emitAll model p w es) fs := by
  simp [emitAll, List.foldl_append]

theorem emitAll_trace (w : Output) (es : List PinEvent) :
    (emitAll model p w es).trace = w.trace ++ es.map (traceEvent p) := by
  induction es generalizing w with
  | nil => simp [emitAll]
  | cons e es ih => rw [emitAll_cons, ih]; simp

theorem emitAll_mode (w : Output) (es : List PinEvent) :
    (emitAll model p w es).mode = es.foldl modeAfter w.mode := by
  induction es generalizing w with
  | nil => rfl
  | cons e es ih => rw [emitAll_cons, ih]; rfl

theorem emitAll_level (w : Output) (es : List PinEvent) :
    (emitAll model p w es).level = es.foldl levelAfter w.level := by
  induction es generalizing w with
  | nil => rfl
  | cons e es ih => rw [emitAll_cons, ih]; rfl

theorem observe_lengths (mode : PerRole ModeReg) (level : PerRole LevelReg) (e : PinEvent) (c : Chain) :
    (c.observe model mode level e).s.length = c.s.length ∧
      ((c.observe model mode level e).q.length = c.q.length ∨
        (c.observe model mode level e).q.length = c.s.length) := by
  unfold Chain.observe
  split
  · split <;> simp [shiftEdge_s_length, shiftEdge_q]
  · split <;> simp [latchEdge_s, latchEdge_q]
  · simp

theorem emitAll_lengths (w : Output) (es : List PinEvent) (h : w.chain.q.length = w.chain.s.length) :
    (emitAll model p w es).chain.s.length = w.chain.s.length ∧
      (emitAll model p w es).chain.q.length = w.chain.s.length := by
  induction es generalizing w with
  | nil => exact ⟨rfl, h⟩
  | cons e es ih =>
    obtain ⟨hs, hq⟩ := observe_lengths model w.mode w.level e w.chain
    rw [emitAll_cons]
    have := ih (emit model p w e) (by simp only [emit_chain]; omega)
    simpa [hs] using this

/-- Both pulse lines are LOW and all pins are outputs: where every pulse starts (R98, R114). -/
structure PulseReady (w : Output) : Prop where
  mode : w.mode = ⟨.output, .output, .output⟩
  sclk : w.level.sclk = .low
  lclk : w.level.lclk = .low

theorem sendBit_mode (w : Output) (d : Bool) : (emitAll model p w (sendBitEvents d)).mode = w.mode := rfl

theorem sendBit_level (w : Output) (d : Bool) :
    (emitAll model p w (sendBitEvents d)).level =
      { w.level with sclk := .low, sdata := levelReg (bitLevel d) } := rfl

theorem sendBit_chain {w : Output} (h : PulseReady w) (d : Bool) :
    (emitAll model p w (sendBitEvents d)).chain = w.chain.shiftEdge model d := by
  cases d <;>
    simp [emitAll, sendBitEvents, emit, Chain.observe, modeAfter, levelAfter, perRoleSet, bitLevel, levelReg, dataBit,
      h.sclk, h.mode]

theorem sendBit_ready {w : Output} (h : PulseReady w) (d : Bool) : PulseReady (emitAll model p w (sendBitEvents d)) :=
  ⟨h.mode, rfl, h.lclk⟩

theorem sendBits_cons (d : Bool) (ds : List Bool) : sendBitsEvents (d :: ds) = sendBitEvents d ++ sendBitsEvents ds := rfl

theorem sendBits_ready {w : Output} (h : PulseReady w) (bits : List Bool) :
    PulseReady (emitAll model p w (sendBitsEvents bits)) := by
  induction bits generalizing w with
  | nil => exact h
  | cons d ds ih => rw [sendBits_cons, emitAll_append]; exact ih (sendBit_ready model p h d)

theorem sendBits_chain {w : Output} (h : PulseReady w) (bits : List Bool) :
    (emitAll model p w (sendBitsEvents bits)).chain = w.chain.shiftAll model bits := by
  induction bits generalizing w with
  | nil => rfl
  | cons d ds ih =>
    rw [sendBits_cons, emitAll_append, ih (sendBit_ready model p h d), sendBit_chain model p h, shiftAll_cons]

theorem sendBits_mode (w : Output) (bits : List Bool) : (emitAll model p w (sendBitsEvents bits)).mode = w.mode := by
  induction bits generalizing w with
  | nil => rfl
  | cons d ds ih => rw [sendBits_cons, emitAll_append, ih, sendBit_mode]

/-- LEVEL after a run of SEND_BIT: the clock is LOW and the data line holds the last bit, if there was one (R73, R81). -/
theorem sendBits_level (w : Output) (bits : List Bool) :
    (emitAll model p w (sendBitsEvents bits)).level =
      { w.level with
        sclk := if bits = [] then w.level.sclk else .low
        sdata := (bits.getLast?.map fun d => levelReg (bitLevel d)).getD w.level.sdata } := by
  induction bits generalizing w with
  | nil => rfl
  | cons d ds ih =>
    rw [sendBits_cons, emitAll_append, ih, sendBit_level]
    cases ds with
    | nil => rfl
    | cons c cs => simp [List.getLast?_eq_some_getLast]

theorem latch_mode (w : Output) : (emitAll model p w latchEvents).mode = w.mode := rfl

theorem latch_level (w : Output) : (emitAll model p w latchEvents).level = { w.level with lclk := .low } := rfl

theorem latch_chain {w : Output} (h : PulseReady w) :
    (emitAll model p w latchEvents).chain = w.chain.latchEdge model := by
  simp [emitAll, latchEvents, emit, Chain.observe, h.lclk, h.mode]

theorem shiftAndLatch_mode (w : Output) (bits : List Bool) :
    (emitAll model p w (shiftAndLatchEvents bits)).mode = w.mode := by
  rw [shiftAndLatchEvents, emitAll_append, latch_mode, sendBits_mode]

theorem shiftAndLatch_level (w : Output) (bits : List Bool) :
    (emitAll model p w (shiftAndLatchEvents bits)).level =
      { sclk := if bits = [] then w.level.sclk else .low
        sdata := (bits.getLast?.map fun d => levelReg (bitLevel d)).getD w.level.sdata
        lclk := .low } := by
  rw [shiftAndLatchEvents, emitAll_append, latch_level, sendBits_level]

theorem shiftAndLatch_chain {w : Output} (h : PulseReady w) (bits : List Bool) :
    (emitAll model p w (shiftAndLatchEvents bits)).chain = (w.chain.shiftAll model bits).latchEdge model := by
  rw [shiftAndLatchEvents, emitAll_append, latch_chain model p (sendBits_ready model p h bits),
    sendBits_chain model p h]

theorem shiftAndLatch_ready {w : Output} (h : PulseReady w) (bits : List Bool) :
    PulseReady (emitAll model p w (shiftAndLatchEvents bits)) := by
  refine ⟨(shiftAndLatch_mode ..).trans h.mode, ?_, ?_⟩ <;> rw [shiftAndLatch_level]
  simp [h.sclk]

/-- CLEAR empties a chain no longer than TOTAL, in either model (R105). -/
theorem clear_chain_zero {w : Output} (h : PulseReady w) {n : Nat} (hn : w.chain.s.length ≤ n) :
    (emitAll model p w (clearEvents n)).chain.s = List.replicate w.chain.s.length false ∧
      (emitAll model p w (clearEvents n)).chain.q = List.replicate w.chain.s.length false := by
  rw [clearEvents, shiftAndLatch_chain model p h, latchEdge_s, latchEdge_q, shiftAll_zeros _ _ hn]
  exact ⟨rfl, rfl⟩

theorem setup_mode (w : Output) : (emitAll model p w setupEvents).mode = ⟨.output, .output, .output⟩ := rfl

theorem setup_level (w : Output) : (emitAll model p w setupEvents).level = ⟨.low, .low, .low⟩ := rfl

theorem release_mode (w : Output) : (emitAll model p w releaseEvents).mode = ⟨.input, .input, .input⟩ := rfl

theorem release_level (w : Output) : (emitAll model p w releaseEvents).level = w.level := rfl

theorem release_chain (w : Output) : (emitAll model p w releaseEvents).chain = w.chain := rfl

end Sys2Proof.Machine
end

