-- ==== Sys2Proof/Laws/State.lean ====
section
/-!
SUPPORT. What each named update of the state does to each field, so that no later proof unfolds a record update.
-/

namespace Sys2Proof.Machine

variable (s : State)

@[simp] theorem emitState_params (p : PinSet) (es : List PinEvent) :
    (emitState s p es).params = s.params := rfl
@[simp] theorem emitState_life (p : PinSet) (es : List PinEvent) :
    (emitState s p es).life = s.life := rfl
@[simp] theorem emitState_total (p : PinSet) (es : List PinEvent) :
    (emitState s p es).total = s.total := rfl
@[simp] theorem emitState_active (p : PinSet) (es : List PinEvent) :
    (emitState s p es).active = s.active := rfl
@[simp] theorem emitState_pins (p : PinSet) (es : List PinEvent) :
    (emitState s p es).pins = s.pins := rfl
@[simp] theorem emitState_out (p : PinSet) (es : List PinEvent) :
    (emitState s p es).out = emitAll s.params.chainModel p s.out es := rfl
@[simp] theorem emitState_fault (p : PinSet) (es : List PinEvent) :
    (emitState s p es).fault = s.fault := rfl
@[simp] theorem emitState_stream (p : PinSet) (es : List PinEvent) :
    (emitState s p es).stream = s.stream := rfl
@[simp] theorem emitState_draws (p : PinSet) (es : List PinEvent) :
    (emitState s p es).draws = s.draws := rfl
@[simp] theorem emitState_useq (p : PinSet) (es : List PinEvent) :
    (emitState s p es).useq = s.useq := rfl
@[simp] theorem emitState_port (p : PinSet) (es : List PinEvent) :
    (emitState s p es).port = s.port := rfl

@[simp] theorem raise_params (cause : FaultCause) (word : CommandWord) :
    (raise s cause word).params = s.params := rfl
@[simp] theorem raise_life (cause : FaultCause) (word : CommandWord) :
    (raise s cause word).life = s.life := rfl
@[simp] theorem raise_total (cause : FaultCause) (word : CommandWord) :
    (raise s cause word).total = s.total := rfl
@[simp] theorem raise_active (cause : FaultCause) (word : CommandWord) :
    (raise s cause word).active = s.active := rfl
@[simp] theorem raise_pins (cause : FaultCause) (word : CommandWord) :
    (raise s cause word).pins = s.pins := rfl
@[simp] theorem raise_out (cause : FaultCause) (word : CommandWord) :
    (raise s cause word).out = s.out := rfl
@[simp] theorem raise_fault (cause : FaultCause) (word : CommandWord) :
    (raise s cause word).fault = { code := faultCode cause, info := some word } := rfl
@[simp] theorem raise_stream (cause : FaultCause) (word : CommandWord) :
    (raise s cause word).stream = s.stream := rfl
@[simp] theorem raise_draws (cause : FaultCause) (word : CommandWord) :
    (raise s cause word).draws = s.draws := rfl
@[simp] theorem raise_useq (cause : FaultCause) (word : CommandWord) :
    (raise s cause word).useq = s.useq := rfl
@[simp] theorem raise_port (cause : FaultCause) (word : CommandWord) :
    (raise s cause word).port = s.port := rfl

@[simp] theorem redrawChain_params (n : Nat) :
    (redrawChain s n).params = s.params := rfl
@[simp] theorem redrawChain_life (n : Nat) :
    (redrawChain s n).life = s.life := rfl
@[simp] theorem redrawChain_total (n : Nat) :
    (redrawChain s n).total = s.total := rfl
@[simp] theorem redrawChain_active (n : Nat) :
    (redrawChain s n).active = s.active := rfl
@[simp] theorem redrawChain_pins (n : Nat) :
    (redrawChain s n).pins = s.pins := rfl
@[simp] theorem redrawChain_out (n : Nat) :
    (redrawChain s n).out = { s.out with chain := Chain.drawn s.stream s.draws n } := rfl
@[simp] theorem redrawChain_fault (n : Nat) :
    (redrawChain s n).fault = s.fault := rfl
@[simp] theorem redrawChain_stream (n : Nat) :
    (redrawChain s n).stream = s.stream := rfl
@[simp] theorem redrawChain_draws (n : Nat) :
    (redrawChain s n).draws = s.draws + 2 * n := rfl
@[simp] theorem redrawChain_useq (n : Nat) :
    (redrawChain s n).useq = s.useq := rfl
@[simp] theorem redrawChain_port (n : Nat) :
    (redrawChain s n).port = s.port := rfl

@[simp] theorem bindChannel_params (p : PinSet) (r : Int) :
    (bindChannel s p r).params = s.params := rfl
@[simp] theorem bindChannel_life (p : PinSet) (r : Int) :
    (bindChannel s p r).life = .live := rfl
@[simp] theorem bindChannel_total (p : PinSet) (r : Int) :
    (bindChannel s p r).total = clampCount r s.params.maxSerialBits := rfl
@[simp] theorem bindChannel_active (p : PinSet) (r : Int) :
    (bindChannel s p r).active = clampCount r s.params.maxSerialBits := rfl
@[simp] theorem bindChannel_pins (p : PinSet) (r : Int) :
    (bindChannel s p r).pins = some p := rfl
@[simp] theorem bindChannel_out (p : PinSet) (r : Int) :
    (bindChannel s p r).out = s.out := rfl
@[simp] theorem bindChannel_fault (p : PinSet) (r : Int) :
    (bindChannel s p r).fault = s.fault := rfl
@[simp] theorem bindChannel_stream (p : PinSet) (r : Int) :
    (bindChannel s p r).stream = s.stream := rfl
@[simp] theorem bindChannel_draws (p : PinSet) (r : Int) :
    (bindChannel s p r).draws = s.draws := rfl
@[simp] theorem bindChannel_useq (p : PinSet) (r : Int) :
    (bindChannel s p r).useq = s.useq := rfl
@[simp] theorem bindChannel_port (p : PinSet) (r : Int) :
    (bindChannel s p r).port = s.port := rfl

@[simp] theorem issue_params (cs : List Command) :
    (issue s cs).params = s.params := rfl
@[simp] theorem issue_life (cs : List Command) :
    (issue s cs).life = s.life := rfl
@[simp] theorem issue_total (cs : List Command) :
    (issue s cs).total = s.total := rfl
@[simp] theorem issue_active (cs : List Command) :
    (issue s cs).active = s.active := rfl
@[simp] theorem issue_pins (cs : List Command) :
    (issue s cs).pins = s.pins := rfl
@[simp] theorem issue_out (cs : List Command) :
    (issue s cs).out = s.out := rfl
@[simp] theorem issue_fault (cs : List Command) :
    (issue s cs).fault = s.fault := rfl
@[simp] theorem issue_stream (cs : List Command) :
    (issue s cs).stream = s.stream := rfl
@[simp] theorem issue_draws (cs : List Command) :
    (issue s cs).draws = s.draws := rfl
@[simp] theorem issue_useq (cs : List Command) :
    (issue s cs).useq = s.useq := rfl
@[simp] theorem issue_port (cs : List Command) :
    (issue s cs).port = s.port ++ cs := rfl

@[simp] theorem powerOn_params (p : Params) (k : Nat) : (State.powerOn p k).params = p := rfl
@[simp] theorem powerOn_life (p : Params) (k : Nat) : (State.powerOn p k).life = .unbound := rfl
@[simp] theorem powerOn_total (p : Params) (k : Nat) : (State.powerOn p k).total = 0 := rfl
@[simp] theorem powerOn_active (p : Params) (k : Nat) : (State.powerOn p k).active = 0 := rfl
@[simp] theorem powerOn_pins (p : Params) (k : Nat) : (State.powerOn p k).pins = none := rfl
@[simp] theorem powerOn_fault (p : Params) (k : Nat) : (State.powerOn p k).fault = { code := 0, info := none } := rfl
@[simp] theorem powerOn_stream (p : Params) (k : Nat) : (State.powerOn p k).stream = k := rfl
@[simp] theorem powerOn_draws (p : Params) (k : Nat) : (State.powerOn p k).draws = 2 * chainStages p.chainLength 0 := rfl
@[simp] theorem powerOn_useq (p : Params) (k : Nat) : (State.powerOn p k).useq = [] := rfl
@[simp] theorem powerOn_port (p : Params) (k : Nat) : (State.powerOn p k).port = [] := rfl
@[simp] theorem powerOn_mode (p : Params) (k : Nat) :
    (State.powerOn p k).out.mode = ⟨.unknown, .unknown, .unknown⟩ := rfl
@[simp] theorem powerOn_level (p : Params) (k : Nat) :
    (State.powerOn p k).out.level = ⟨.unknown, .unknown, .unknown⟩ := rfl
@[simp] theorem powerOn_trace (p : Params) (k : Nat) : (State.powerOn p k).out.trace = [] := rfl
@[simp] theorem powerOn_chain (p : Params) (k : Nat) :
    (State.powerOn p k).out.chain = Chain.drawn k 0 (chainStages p.chainLength 0) := rfl

@[simp] theorem drawn_j (stream k n : Nat) : (Chain.drawn stream k n).j = 0 := rfl
@[simp] theorem drawn_s_length (stream k n : Nat) : (Chain.drawn stream k n).s.length = n := by
  simp [Chain.drawn, drawBits]
@[simp] theorem drawn_q_length (stream k n : Nat) : (Chain.drawn stream k n).q.length = n := by
  simp [Chain.drawn, drawBits]

theorem raise_stopped (cause : FaultCause) (word : CommandWord) : stopped (raise s cause word) := by
  cases cause <;> simp [stopped, faultCode]

theorem raise_fault_ne {s : State} (h : ¬stopped s) (cause : FaultCause) (word : CommandWord) :
    (raise s cause word).fault ≠ s.fault := by
  intro he
  have := raise_stopped s cause word
  rw [stopped, he] at this
  exact h this

end Sys2Proof.Machine
end

