-- ==== Sys2Proof/Laws/Lifecycle.lean ====
section
/-!
SUPPORT. What CONSTRUCT and DESTROY leave in each part of the output side, said once (R61 to R64, R103, R109, R110).
-/

namespace Sys2Proof.Machine

variable (s : State) (p : PinSet)

@[simp] theorem constructed_total (r : Int) :
    (constructed s p r).total = clampCount r s.params.maxSerialBits := rfl
@[simp] theorem constructed_active (r : Int) :
    (constructed s p r).active = clampCount r s.params.maxSerialBits := rfl
@[simp] theorem constructed_life (r : Int) : (constructed s p r).life = .live := rfl
@[simp] theorem constructed_pins (r : Int) : (constructed s p r).pins = some p := rfl
@[simp] theorem constructed_params (r : Int) : (constructed s p r).params = s.params := rfl
@[simp] theorem constructed_fault (r : Int) : (constructed s p r).fault = s.fault := rfl
@[simp] theorem constructed_stream (r : Int) : (constructed s p r).stream = s.stream := rfl
@[simp] theorem constructed_useq (r : Int) : (constructed s p r).useq = s.useq := rfl
@[simp] theorem constructed_port (r : Int) : (constructed s p r).port = s.port := rfl

/-- The output side at the end of the set-up phase, the chain redrawn (R62, R103). -/
def setUpOutput (r : Int) : Output :=
  { emitAll s.params.chainModel p s.out setupEvents with
    chain := Chain.drawn s.stream s.draws (chainStages s.params.chainLength (clampCount r s.params.maxSerialBits)) }

theorem setUpOutput_ready (r : Int) : PulseReady (setUpOutput s p r) := ⟨rfl, rfl, rfl⟩

theorem constructed_out (r : Int) :
    (constructed s p r).out =
      emitAll s.params.chainModel p (setUpOutput s p r) (clearEvents (clampCount r s.params.maxSerialBits)) := rfl

theorem constructed_mode (r : Int) : (constructed s p r).out.mode = ⟨.output, .output, .output⟩ := by
  rw [constructed_out, clearEvents, shiftAndLatch_mode]; rfl

theorem constructed_level (r : Int) : (constructed s p r).out.level = ⟨.low, .low, .low⟩ := by
  rw [constructed_out, clearEvents, shiftAndLatch_level]
  have h : (setUpOutput s p r).level = ⟨.low, .low, .low⟩ := rfl
  rw [h]
  cases clampCount r s.params.maxSerialBits <;> simp [List.getLast?_replicate, bitLevel, levelReg]

theorem constructed_trace (r : Int) :
    (constructed s p r).out.trace =
      s.out.trace ++ (setupEvents ++ clearEvents (clampCount r s.params.maxSerialBits)).map (traceEvent p) := by
  have h : (setUpOutput s p r).trace = s.out.trace ++ setupEvents.map (traceEvent p) := emitAll_trace _ _ _ _
  rw [constructed_out, emitAll_trace, h]; simp

theorem constructed_chain (r : Int) :
    (constructed s p r).out.chain =
      ((Chain.drawn s.stream s.draws (chainStages s.params.chainLength (clampCount r s.params.maxSerialBits))).shiftAll
        s.params.chainModel (List.replicate (clampCount r s.params.maxSerialBits) false)).latchEdge
          s.params.chainModel := by
  rw [constructed_out, clearEvents, shiftAndLatch_chain _ _ (setUpOutput_ready s p r)]; rfl

theorem destroyed_out :
    (destroyed s p).out = emitAll s.params.chainModel p s.out (clearEvents s.total ++ releaseEvents) := by
  rw [emitAll_append]; rfl

theorem destroyed_mode : (destroyed s p).out.mode = ⟨.input, .input, .input⟩ := rfl

theorem destroyed_level :
    (destroyed s p).out.level = (emitAll s.params.chainModel p s.out (clearEvents s.total)).level := rfl

theorem destroyed_chain :
    (destroyed s p).out.chain = (emitAll s.params.chainModel p s.out (clearEvents s.total)).chain := rfl

end Sys2Proof.Machine
end

