-- ==== Sys2Proof/Laws/Meanings.lean ====
section
/-!
SUPPORT. Everything each shared operation, each meaning and a step can do, said once: if it answers a next state, then one of
these.
-/

namespace Sys2Proof.Machine

open Host (Outcome)

variable {s t : State}

theorem whenRunning_next {o : Outcome State Fault Refusal} (h : whenRunning s o = .next t) :
    ¬stopped s ∧ o = .next t := by
  unfold whenRunning at h
  split at h
  · cases h
  · exact ⟨‹_›, h⟩

theorem whenRunning_running (h : ¬stopped s) (o : Outcome State Fault Refusal) : whenRunning s o = o :=
  if_neg h

theorem whenRunning_stopped (h : stopped s) (o : Outcome State Fault Refusal) :
    whenRunning s o = .fault (.stopped s.fault.code s.fault.info) := if_pos h

theorem withPins_next {k : PinSet → State} (h : withPins s k = .next t) : ∃ p, s.pins = some p ∧ t = k p := by
  unfold withPins at h
  split at h
  · cases h
  · rename_i p hp; cases h; exact ⟨p, hp, rfl⟩

theorem withPins_some {p : PinSet} (h : s.pins = some p) (k : PinSet → State) : withPins s k = .next (k p) := by
  simp [withPins, h]

/-- A micro-operation that completes ran on a live channel and emitted its events (R56). -/
theorem runMicroOp_next {es : List PinEvent} (h : runMicroOp s es = .next t) :
    ¬stopped s ∧ s.life = .live ∧ ∃ p, s.pins = some p ∧ t = emitState s p es := by
  obtain ⟨hr, h⟩ := whenRunning_next h
  split at h
  · exact ⟨hr, ‹_›, withPins_next h⟩
  · cases h

theorem runMicroOp_live {p : PinSet} (hr : ¬stopped s) (hl : s.life = .live) (hp : s.pins = some p)
    (es : List PinEvent) : runMicroOp s es = .next (emitState s p es) := by
  rw [runMicroOp, whenRunning_running hr, if_pos hl, withPins_some hp]

/-- What CONSTRUCT can do (R61). -/
theorem execConstruct_cases {p : PinSet} {r : Int} (h : execConstruct p r s = .next t) :
    ¬stopped s ∧
      ((s.life = .live ∧ t = raise s .channelLive (commandWord s.params.argWidth opcConstruct r)) ∨
       (s.life ≠ .live ∧ pinsAlias p ∧ t = raise s .pinAlias (commandWord s.params.argWidth opcConstruct r)) ∨
       (s.life ≠ .live ∧ ¬pinsAlias p ∧ t = constructed s p r)) := by
  obtain ⟨hr, h⟩ := whenRunning_next h
  refine ⟨hr, ?_⟩
  split at h
  · cases h; exact .inl ⟨‹_›, rfl⟩
  split at h
  · cases h; exact .inr (.inl ⟨‹_›, ‹_›, rfl⟩)
  · cases h; exact .inr (.inr ⟨‹_›, ‹_›, rfl⟩)

/-- What TRANSMIT can do (R65, R67). -/
theorem execTransmit_cases {buf : List Byte} {n : Int} (h : execTransmit buf n s = .next t) :
    ¬stopped s ∧
      ((s.life ≠ .live ∧ t = raise s .noChannel (commandWord s.params.argWidth opcTransmit n)) ∨
       (s.life = .live ∧ bufferOverrun s buf n ∧
          t = raise s .bufferOverrun (commandWord s.params.argWidth opcTransmit n)) ∨
       (s.life = .live ∧ ¬bufferOverrun s buf n ∧ ∃ p, s.pins = some p ∧
          t = emitState s p (shiftAndLatchEvents (sentBits s.active buf n)))) := by
  obtain ⟨hr, h⟩ := whenRunning_next h
  refine ⟨hr, ?_⟩
  split at h
  · cases h; exact .inl ⟨‹_›, rfl⟩
  · rename_i hl
    have hl : s.life = .live := by simpa using hl
    split at h
    · cases h; exact .inr (.inl ⟨hl, ‹_›, rfl⟩)
    · exact .inr (.inr ⟨hl, ‹_›, withPins_next h⟩)

/-- What SET_ACTIVE can do (R79). -/
theorem execSetActive_cases {n : Int} (h : execSetActive n s = .next t) :
    ¬stopped s ∧
      ((s.life ≠ .live ∧ t = raise s .noChannel (commandWord s.params.argWidth opcSetActive n)) ∨
       (s.life = .live ∧ t = { s with active := clampCount n s.total })) := by
  obtain ⟨hr, h⟩ := whenRunning_next h
  refine ⟨hr, ?_⟩
  split at h
  · cases h; exact .inl ⟨‹_›, rfl⟩
  · rename_i hl; cases h; exact .inr ⟨by simpa using hl, rfl⟩

/-- What DESTROY can do (R63). -/
theorem execDestroy_cases {a : Int} (h : execDestroy a s = .next t) :
    ¬stopped s ∧
      ((s.life ≠ .live ∧ t = raise s .noChannel (commandWord s.params.argWidth opcDestroy a)) ∨
       (s.life = .live ∧ ∃ p, s.pins = some p ∧ t = destroyed s p)) := by
  obtain ⟨hr, h⟩ := whenRunning_next h
  refine ⟨hr, ?_⟩
  split at h
  · cases h; exact .inl ⟨‹_›, rfl⟩
  · rename_i hl; exact .inr ⟨by simpa using hl, withPins_next h⟩

/-- What CONSTRUCT answers in each of its three cases (R61). -/
theorem execConstruct_live (hr : ¬stopped s) (hl : s.life = .live) (p : PinSet) (r : Int) :
    execConstruct p r s = .next (raise s .channelLive (commandWord s.params.argWidth opcConstruct r)) :=
  (whenRunning_running hr _).trans (if_pos hl)

theorem execConstruct_alias (hr : ¬stopped s) (hl : s.life ≠ .live) {p : PinSet} (hp : pinsAlias p) (r : Int) :
    execConstruct p r s = .next (raise s .pinAlias (commandWord s.params.argWidth opcConstruct r)) :=
  (whenRunning_running hr _).trans ((if_neg hl).trans (if_pos hp))

theorem execConstruct_ok (hr : ¬stopped s) (hl : s.life ≠ .live) {p : PinSet} (hp : ¬pinsAlias p) (r : Int) :
    execConstruct p r s = .next (constructed s p r) :=
  (whenRunning_running hr _).trans ((if_neg hl).trans (if_neg hp))

/-- What TRANSMIT answers in each of its three cases (R65). -/
theorem execTransmit_noChannel (hr : ¬stopped s) (hl : s.life ≠ .live) (buf : List Byte) (n : Int) :
    execTransmit buf n s = .next (raise s .noChannel (commandWord s.params.argWidth opcTransmit n)) :=
  (whenRunning_running hr _).trans (if_pos hl)

theorem execTransmit_overrun (hr : ¬stopped s) (hl : s.life = .live) {buf : List Byte} {n : Int}
    (ho : bufferOverrun s buf n) :
    execTransmit buf n s = .next (raise s .bufferOverrun (commandWord s.params.argWidth opcTransmit n)) :=
  (whenRunning_running hr _).trans ((if_neg (fun h => h hl)).trans (if_pos ho))

theorem execTransmit_ok (hr : ¬stopped s) (hl : s.life = .live) {buf : List Byte} {n : Int}
    (ho : ¬bufferOverrun s buf n) {p : PinSet} (hp : s.pins = some p) :
    execTransmit buf n s = .next (emitState s p (shiftAndLatchEvents (sentBits s.active buf n))) :=
  (whenRunning_running hr _).trans
    ((if_neg (fun h => h hl)).trans ((if_neg ho).trans (withPins_some hp _)))

/-- What SET_ACTIVE answers in each of its two cases (R79). -/
theorem execSetActive_noChannel (hr : ¬stopped s) (hl : s.life ≠ .live) (n : Int) :
    execSetActive n s = .next (raise s .noChannel (commandWord s.params.argWidth opcSetActive n)) :=
  (whenRunning_running hr _).trans (if_pos hl)

theorem execSetActive_ok (hr : ¬stopped s) (hl : s.life = .live) (n : Int) :
    execSetActive n s = .next { s with active := clampCount n s.total } :=
  (whenRunning_running hr _).trans (if_neg (fun h => h hl))

/-- What DESTROY answers in each of its two cases (R63). -/
theorem execDestroy_noChannel (hr : ¬stopped s) (hl : s.life ≠ .live) (a : Int) :
    execDestroy a s = .next (raise s .noChannel (commandWord s.params.argWidth opcDestroy a)) :=
  (whenRunning_running hr _).trans (if_pos hl)

theorem execDestroy_ok (hr : ¬stopped s) (hl : s.life = .live) {p : PinSet} (hp : s.pins = some p) (a : Int) :
    execDestroy a s = .next (destroyed s p) :=
  (whenRunning_running hr _).trans ((if_neg (fun h => h hl)).trans (withPins_some hp _))

/-- What the next step finds, by what is presented. -/
theorem fetch_stopped (h : stopped s) : fetch s = .stopped s.fault.code s.fault.info := if_pos h

theorem fetch_micro {u : MicroCode} {us : List MicroCode} {i : Instr} (h : ¬stopped s) (hu : s.useq = u :: us)
    (hd : decodeMicro u = .ok i) : fetch s = .instr i { s with useq := us } := by
  rw [fetch, if_neg h, hu]; simp [hd]

theorem fetch_command {c : Command} {cs : List Command} {i : Instr} (h : ¬stopped s) (hu : s.useq = [])
    (hp : s.port = c :: cs) (hw : c.word.argWidth = s.params.argWidth) (hd : decodeCommand c = .ok i) :
    fetch s = .instr i { s with port := cs } := by
  rw [fetch, if_neg h, hu, hp]; simp [hw, hd]

theorem fetch_illegal {c : Command} {cs : List Command} {e : DecodeError} (h : ¬stopped s) (hu : s.useq = [])
    (hp : s.port = c :: cs) (hw : c.word.argWidth = s.params.argWidth) (hd : decodeCommand c = .error e) :
    fetch s = .illegal c.word { s with port := cs } := by
  rw [fetch, if_neg h, hu, hp]; simp [hw, hd]

theorem fetch_width {c : Command} {cs : List Command} (h : ¬stopped s) (hu : s.useq = []) (hp : s.port = c :: cs)
    (hw : c.word.argWidth ≠ s.params.argWidth) : fetch s = .width c.word := by
  rw [fetch, if_neg h, hu, hp]; simp [hw]

theorem fetch_reserved {u : MicroCode} {us : List MicroCode} {e : DecodeError} (h : ¬stopped s)
    (hu : s.useq = u :: us) (hd : decodeMicro u = .error e) : fetch s = .reserved u := by
  rw [fetch, if_neg h, hu]; simp [hd]

theorem fetch_idle (h : ¬stopped s) (hu : s.useq = []) (hp : s.port = []) : fetch s = .idle := by
  rw [fetch, if_neg h, hu, hp]

/-- What a step can do. -/
theorem step_cases (h : step s = .next t) :
    ¬stopped s ∧
      ((∃ u us i, s.useq = u :: us ∧ decodeMicro u = .ok i ∧ exec i { s with useq := us } = .next t) ∨
       (∃ c cs i, s.useq = [] ∧ s.port = c :: cs ∧ c.word.argWidth = s.params.argWidth ∧ decodeCommand c = .ok i ∧
          exec i { s with port := cs } = .next t) ∨
       (∃ c cs e, s.useq = [] ∧ s.port = c :: cs ∧ c.word.argWidth = s.params.argWidth ∧ decodeCommand c = .error e ∧
          t = raise { s with port := cs } .illegalCommand c.word) ∨
       (s.useq = [] ∧ s.port = [] ∧ t = s)) := by
  by_cases hr : stopped s
  · simp only [step, fetch_stopped hr] at h; cases h
  refine ⟨hr, ?_⟩
  have huse : s.useq = [] ∨ ∃ u us, s.useq = u :: us := by cases s.useq <;> simp
  have hport : s.port = [] ∨ ∃ c cs, s.port = c :: cs := by cases s.port <;> simp
  rcases huse with hu | ⟨u, us, hu⟩
  · rcases hport with hp | ⟨c, cs, hp⟩
    · simp only [step, fetch_idle hr hu hp] at h; cases h; exact .inr (.inr (.inr ⟨hu, hp, rfl⟩))
    by_cases hw : c.word.argWidth = s.params.argWidth
    · cases hd : decodeCommand c with
      | ok i =>
        simp only [step, fetch_command hr hu hp hw hd] at h
        exact .inr (.inl ⟨c, cs, i, hu, hp, hw, hd, h⟩)
      | error e =>
        simp only [step, fetch_illegal hr hu hp hw hd] at h
        cases h
        exact .inr (.inr (.inl ⟨c, cs, e, hu, hp, hw, hd, rfl⟩))
    · simp only [step, fetch_width hr hu hp hw] at h; cases h
  · cases hd : decodeMicro u with
    | ok i => simp only [step, fetch_micro hr hu hd] at h; exact .inl ⟨u, us, i, hu, hd, h⟩
    | error e => simp only [step, fetch_reserved hr hu hd] at h; cases h

end Sys2Proof.Machine
end

