-- ==== Sys2Proof/Laws/PerInstr.lean ====
section
/-!
SUPPORT. A statement made for every instruction: no instruction is encoded in a reserved opcode (R54) or a reserved
micro-operation code (R56).
-/

namespace Sys2Proof.Laws.NotReserved

/-- Whatever ARG_WIDTH is, the encoding of the instruction has a defined opcode, or a defined micro-operation code. -/
def Statement (i : Instr) : Prop :=
  ∀ n : Nat,
    match encode n i with
    | .command c => (wordOpc c.word).toNat < 4
    | .micro u => u.toNat < 4

theorem construct (pins : PinSet) (requestedBits : Int) : Statement (.construct pins requestedBits) := by
  simp [Statement, encode, wordOpc_commandWord, opcConstruct]

theorem transmit (buf : List Byte) (bitCount : Int) : Statement (.transmit buf bitCount) := by
  simp [Statement, encode, wordOpc_commandWord, opcTransmit]

theorem setActive (count : Int) : Statement (.setActive count) := by
  simp [Statement, encode, wordOpc_commandWord, opcSetActive]

theorem destroy (arg : Int) : Statement (.destroy arg) := by
  simp [Statement, encode, wordOpc_commandWord, opcDestroy]

theorem sendBit (d : Bool) : Statement (.sendBit d) := by cases d <;> simp [Statement, encode, sendBitCode]

theorem latch : Statement .latch := by simp [Statement, encode, latchCode]

theorem clear : Statement .clear := by simp [Statement, encode, clearCode]

end Sys2Proof.Laws.NotReserved
end

