-- ==== Sys2Proof/Laws/System.lean ====
section
/-!
SUPPORT. What a step of several blocks can do (R107), and what disjointness of all of them says of each two.
-/

namespace Sys2Proof.Machine

/-- A step of the blocks is a step of one of them, between two states in which no pin has two owners. -/
theorem systemStep_next {blocks after : List State} {k : Fin blocks.length} (h : systemStep blocks k = .next after) :
    allDisjoint blocks = true ∧ allDisjoint after = true ∧ ∃ s, step blocks[k] = .next s ∧ after = blocks.set k s := by
  unfold systemStep at h
  split at h
  · rename_i hb
    split at h
    · rename_i s hs
      simp only at h
      split at h
      · cases h; exact ⟨hb, ‹_›, s, hs, rfl⟩
      · cases h
    · cases h
    · cases h
  · cases h

theorem disjointPins_iff (a b : State) :
    disjointPins a b = true ↔ ∀ pin, pin ∈ ownedPins a → pin ∉ ownedPins b := by
  simp [disjointPins]

theorem disjointPins_comm (a b : State) : disjointPins a b = disjointPins b a := by
  rw [Bool.eq_iff_iff, disjointPins_iff, disjointPins_iff]
  exact ⟨fun h pin hb ha => h pin ha hb, fun h pin ha hb => h pin hb ha⟩

/-- All blocks are disjoint exactly when each is from every later one. -/
theorem allDisjoint_iff (blocks : List State) :
    allDisjoint blocks = true ↔ blocks.Pairwise fun a b => disjointPins a b = true := by
  induction blocks with
  | nil => simp [allDisjoint]
  | cons s rest ih => simp [allDisjoint, ih, List.pairwise_cons]

@[simp] theorem ownedPins_powerOn (p : Params) (k : Nat) : ownedPins (State.powerOn p k) = [] := rfl

end Sys2Proof.Machine
end

