-- ==== Sys2Proof/Laws/Trace.lean ====
section
/-!
SUPPORT. The codes of the events each operation emits (R58), and how the statements' own forms read in the model's terms.
-/

namespace Sys2Proof.Safety

open Sys2Proof.Machine

theorem steps_succ (k : Nat) (s : State) :
    steps (k + 1) s =
      match step s with
      | .next t => steps k t
      | .fault r => .fault r
      | .refused r => .refused r := rfl

theorem run_succ (M : Host.Core) (k : Nat) (s : M.State) :
    M.run (k + 1) s =
      match M.step s with
      | .next t => M.run k t
      | .fault r => .fault r
      | .refused r => .refused r := rfl

/-- `steps` is the host's run of this machine. -/
theorem core_run_eq_steps (k : Nat) (s : State) : core.run k s = steps k s := by
  induction k generalizing s with
  | zero => rfl
  | succ k ih =>
    refine (run_succ core k s).trans ?_
    have h : core.step s = step s := rfl
    rw [steps_succ]
    cases ho : step s with
    | next t => rw [h.trans ho]; exact ih t
    | fault r => rw [h.trans ho]; rfl
    | refused r => rw [h.trans ho]; rfl

theorem map_eventCode_sendBits (bits : List Bool) :
    (sendBitsEvents bits).map eventCode = bits.flatMap sendBitTrace := by
  induction bits with
  | nil => rfl
  | cons d ds ih => rw [sendBits_cons, List.map_append, ih]; cases d <;> rfl

theorem flatMap_sendBitTrace_zeros (n : Nat) : (List.replicate n false).flatMap sendBitTrace = zerosTrace n := by
  induction n with
  | zero => rfl
  | succ n ih => rw [List.replicate_succ, List.flatMap_cons, ih]; rfl

theorem map_eventCode_shiftAndLatch (bits : List Bool) :
    (shiftAndLatchEvents bits).map eventCode = bits.flatMap sendBitTrace ++ latchTrace := by
  rw [shiftAndLatchEvents, List.map_append, map_eventCode_sendBits]; rfl

theorem map_eventCode_clear (n : Nat) : (clearEvents n).map eventCode = zerosTrace n ++ latchTrace := by
  rw [clearEvents, map_eventCode_shiftAndLatch, flatMap_sendBitTrace_zeros]

/-- Events added to the trace on the PinSet `p` are emitted in the sense of the statements. -/
theorem emitted_of_trace {s t : State} {p : PinSet} {es : List PinEvent}
    (h : t.out.trace = s.out.trace ++ es.map (traceEvent p)) : emitted s t p (es.map eventCode) := by
  refine ⟨es.map (traceEvent p), h, ?_, ?_⟩
  · simp [codes, traceEvent]
  · intro e he
    obtain ⟨e', _, rfl⟩ := List.mem_map.mp he
    rfl

theorem emitted_emitState (s : State) (p : PinSet) (es : List PinEvent) :
    emitted s (emitState s p es) p (es.map eventCode) :=
  emitted_of_trace (emitAll_trace _ _ _ _)

theorem bufBit_eq_bitAt (buf : List Byte) (k : Nat) : bufBit buf k = bitAt buf k := by
  unfold bufBit bitAt streamBit bufRead
  rw [List.getD_eq_getElem?_getD]
  cases buf[k / 8]?
  · simp
  · rfl

theorem effOf_eq (s : State) (n : Int) : effOf s n = effectiveBits s.active n := rfl

theorem dataOf_eq (s : State) (buf : List Byte) (n : Int) : dataOf s buf n = dataCount s.active buf n := rfl

theorem overruns_iff (s : State) (buf : List Byte) (n : Int) : overruns s buf n ↔ bufferOverrun s buf n := Iff.rfl

theorem LiveInv.ready {s : State} (h : LiveInv s) : PulseReady s.out := ⟨h.mode, h.sclkLow, h.lclkLow⟩

end Sys2Proof.Safety
end

