-- ==== Sys2Proof/Tests/Slice0.lean ====
section
/-!
SUPPORT. Tests of one step on small states, with results taken from the spec's vectors or worked from its encodings, and for
every statement with hypotheses a state and operands that meet them.
-/

namespace Sys2Proof.Tests

open Sys2Proof Sys2Proof.Machine Sys2Proof.Safety

/-! ### The states the tests are about -/

/-- A command word at the default widths. -/
def word (bits : BitVec 40) : CommandWord := ⟨32, bits⟩

/-- The pins `a, b, c` of the spec's vectors. -/
def abc : PinSet := ⟨⟨10⟩, ⟨11⟩, ⟨12⟩⟩

/-- The pins `d, e, f`. -/
def deF : PinSet := ⟨⟨20⟩, ⟨21⟩, ⟨22⟩⟩

/-- A live channel on `a, b, c` between commands, with TOTAL, ACTIVE and a chain that holds `s` in S and in Q. -/
def liveState (total active : Nat) (s : List Bool) : State :=
  { State.reset with
    life := .live
    total := total
    active := active
    pins := some abc
    out :=
      { mode := ⟨.output, .output, .output⟩
        level := ⟨.low, .low, .low⟩
        trace := []
        chain := { s := s, q := s, j := 0 } } }

/-- A live channel with three stages, all of them 1, and ACTIVE = 2. -/
def live3 : State := liveState 3 2 [true, true, true]

/-- `live3` with the parameters SHORT_BUFFER_POLICY = FAULT and CHAIN_MODEL = FREEZE. -/
def live3Strict : State :=
  { live3 with params := { live3.params with shortBuffer := .fault, chainModel := .freeze } }

/-- A released channel (R64). -/
def released : State :=
  { liveState 2 2 [false, false] with
    life := .released
    out := { (liveState 2 2 [false, false]).out with mode := ⟨.input, .input, .input⟩ } }

/-- A block just powered on, on a board with a chain of `n` stages. -/
def board (n : Nat) (model : ChainModel) : State :=
  State.powerOn { Config.defaults with chainLength := .stages n, chainModel := model } 0

/-- A live channel with TOTAL = ACTIVE = 2 on a board with a chain of four stages, all 1. -/
def long (model : ChainModel) : State :=
  { liveState 2 2 [true, true, true, true] with params := (board 4 model).params }

/-- A stopped block. -/
def stoppedState : State := raise live3 .illegalCommand (word 0x0700000000#40)

/-- A state with one command at the port. -/
def at1 (s : State) (w : BitVec 40) (p : PinSet) (buf : List Byte) : State :=
  { s with port := [⟨word w, p, buf⟩] }

/-- The next state, if there is one. -/
def nextOf : Host.Outcome State Machine.Fault Machine.Refusal → Option State
  | .next s => some s
  | _ => none

/-- The refusal, if there is one. -/
def refusalOf : Host.Outcome State Machine.Fault Machine.Refusal → Option Machine.Refusal
  | .refused r => some r
  | _ => none

/-- The fault, if there is one. -/
def faultOf : Host.Outcome State Machine.Fault Machine.Refusal → Option Machine.Fault
  | .fault r => some r
  | _ => none

/-- The codes of everything the next state's trace holds. -/
def traceOf (o : Host.Outcome State Machine.Fault Machine.Refusal) : Option (List EventCode) :=
  (nextOf o).map fun s => codes s.out.trace

/-- S and Q of the next state. -/
def chainOf (o : Host.Outcome State Machine.Fault Machine.Refusal) : Option (List Bool × List Bool) :=
  (nextOf o).map fun s => (s.out.chain.s, s.out.chain.q)

/-! ### Well-formed and ill-formed instructions (R50, U21) -/

theorem test_illFormed_construct : wellFormed 32 (.construct abc 2147483648) = false := by decide
theorem test_illFormed_transmit : wellFormed 32 (.transmit [0xFF#8] (-2147483649)) = false := by decide
theorem test_illFormed_setActive : wellFormed 32 (.setActive 2147483648) = false := by decide
theorem test_illFormed_destroy : wellFormed 32 (.destroy (-2147483649)) = false := by decide
theorem test_wellFormed_bounds :
    wellFormed 32 (.construct abc 2147483647) = true ∧ wellFormed 32 (.transmit [] (-2147483648)) = true ∧
      wellFormed 32 (.setActive (-2147483648)) = true ∧ wellFormed 32 (.destroy 2147483647) = true := by decide

/-! ### Words written out from the encoding tables (R49, R51, R56, R58; vectors L2-E) -/

/-- OPC 00000000, ARG twelve. -/
theorem test_decode_construct :
    decode (.command ⟨word 0b0000000000000000000000000000000000001100#40, abc, []⟩) = .ok (.construct abc 12) := by decide
/-- OPC 00000001, ARG the greatest. -/
theorem test_decode_transmit :
    decode (.command ⟨word 0b0000000101111111111111111111111111111111#40, abc, [0xA5#8]⟩) =
      .ok (.transmit [0xA5#8] 2147483647) := by decide
/-- OPC 00000010, ARG minus three. -/
theorem test_decode_setActive :
    decode (.command ⟨word 0b0000001011111111111111111111111111111101#40, abc, []⟩) = .ok (.setActive (-3)) := by decide
/-- OPC 00000011, ARG 0x12345678. -/
theorem test_decode_destroy :
    decode (.command ⟨word 0b0000001100010010001101000101011001111000#40, abc, []⟩) = .ok (.destroy 0x12345678) := by decide
/-- A block with ARG_WIDTH = 12: OPC 00000001, ARG minus three in twelve bits (R49, R50). -/
theorem test_decode_narrow :
    decode (.command ⟨⟨12, 0b00000001111111111101#20⟩, abc, [0xA5#8]⟩) = .ok (.transmit [0xA5#8] (-3)) := by decide
theorem test_decode_sendBit :
    decode (.micro 0b000#3) = .ok (.sendBit false) ∧ decode (.micro 0b001#3) = .ok (.sendBit true) := by decide
theorem test_decode_latch : decode (.micro 0b010#3) = .ok .latch := by decide
theorem test_decode_clear : decode (.micro 0b011#3) = .ok .clear := by decide
theorem test_decode_reserved :
    decode (.command ⟨word 0x0400000000#40, abc, []⟩) = .error (.reservedOpcode (word 0x0400000000#40)) ∧
      decode (.command ⟨word 0x0500000000#40, abc, []⟩) = .error (.reservedOpcode (word 0x0500000000#40)) ∧
      decode (.command ⟨word 0xFFFFFFFFFF#40, abc, []⟩) = .error (.reservedOpcode (word 0xFFFFFFFFFF#40)) ∧
      decode (.micro 0b100#3) = .error (.reservedMicroOp 0b100#3) ∧
      decode (.micro 0b111#3) = .error (.reservedMicroOp 0b111#3) := by decide
theorem test_encode_words :
    encode 32 (.construct abc (-1)) = .command ⟨word 0x00FFFFFFFF#40, abc, []⟩ ∧
      encode 32 (.transmit [0x01#8] 1) = .command ⟨word 0x0100000001#40, fillerPins, [0x01#8]⟩ ∧
      encode 32 (.setActive (-2147483648)) = .command ⟨word 0x0280000000#40, fillerPins, []⟩ ∧
      encode 32 (.destroy 0) = .command ⟨word 0x0300000000#40, fillerPins, []⟩ := by decide
/-- The event codes of R58's table and the sequences of L2-E. -/
theorem test_eventCodes :
    setupEvents.map eventCode = [0x1#4, 0x2#4, 0x5#4, 0x6#4, 0x9#4, 0xA#4] ∧
      releaseEvents.map eventCode = [0x0#4, 0x4#4, 0x8#4] ∧
      (sendBitEvents true).map eventCode = [0x7#4, 0x3#4, 0x2#4] ∧ latchEvents.map eventCode = [0xB#4, 0xA#4] ∧
      decodeEvent 0xC#4 = none := by decide

/-! ### The words of the opcode table's rows -/

theorem test_tableWords :
    decodeTableWord 40 0x0000000000 = some (.construct fillerPins 0) ∧
      decodeTableWord 40 0x0100000000 = some (.transmit [] 0) ∧ decodeTableWord 40 0x02FFFFFFFF = some (.setActive (-1)) ∧
      decodeTableWord 40 0x0300000000 = some (.destroy 0) ∧ decodeTableWord 3 1 = some (.sendBit true) ∧
      decodeTableWord 8 2 = some .latch ∧ decodeTableWord 8 3 = some .clear ∧ decodeTableWord 8 4 = none ∧
      decodeTableWord 40 0x0400000000 = none ∧ decodeTableWord 40 0x10000000000 = none := by decide
/-- CONSTRUCT 1 as the first instruction after reset (vector L2-C). -/
theorem test_fetchWord_command :
    traceOf (step (State.reset.withFetchWord 40 0x0000000001)) =
      some [0x1#4, 0x2#4, 0x5#4, 0x6#4, 0x9#4, 0xA#4, 0x6#4, 0x3#4, 0x2#4, 0xB#4, 0xA#4] := by decide
/-- SEND_BIT(1) as the first instruction after reset (vector L2-P). -/
theorem test_fetchWord_micro :
    traceOf (step (State.reset.withFetchWord 3 1)) = some [0x7#4, 0x3#4, 0x2#4] := by decide

/-! ### Instructions (vectors L1, L2) -/

/-- L2-C: from power-on `CONSTRUCT a, b, c, 2`: registers, pin state and the cleared chain. -/
theorem test_construct :
    (nextOf (exec (.construct abc 2) State.reset)).map (fun s => (s.life, s.total, s.active, s.pins)) =
      some (.live, 2, 2, some abc) ∧
    (nextOf (exec (.construct abc 2) State.reset)).map (fun s => (s.out.mode, s.out.level)) =
      some (⟨.output, .output, .output⟩, ⟨.low, .low, .low⟩) ∧
    chainOf (exec (.construct abc 2) State.reset) = some ([false, false], [false, false]) := by decide
/-- L2-C: on a live channel `CONSTRUCT a, a, a, 2` is ChannelLive; from power-on `CONSTRUCT a, b, a, 4` is PinAlias. -/
theorem test_construct_faults :
    (nextOf (exec (.construct ⟨⟨10⟩, ⟨10⟩, ⟨10⟩⟩ 2) live3)).map (·.fault) = some ⟨3, some (word 0x0000000002#40)⟩ ∧
    (nextOf (exec (.construct ⟨⟨10⟩, ⟨11⟩, ⟨10⟩⟩ 4) State.reset)).map (fun s => (s.fault, s.life)) =
      some (⟨5, some (word 0x0000000004#40)⟩, .unbound) := by decide
/-- R103, R105: on a board with four stages CONSTRUCT 2 clears two; above them stand bits of the redraw, pushed along. -/
theorem test_construct_longChain :
    chainOf (exec (.construct abc 2) (board 4 .shift)) =
      some ([false, false, Config.freeBit 0 8, Config.freeBit 0 9],
        [false, false, Config.freeBit 0 8, Config.freeBit 0 9]) := rfl
/-- L2-T, T4: a partial last byte whose high bits are not examined, then padding. -/
theorem test_transmit_partial :
    traceOf (exec (.transmit [0xA5#8, 0xFE#8] 9) (liveState 10 10 [])) =
      some [7, 3, 2, 6, 3, 2, 7, 3, 2, 6, 3, 2, 6, 3, 2, 7, 3, 2, 6, 3, 2, 7, 3, 2, 6, 3, 2, 6, 3, 2, 0xB, 0xA] := by
  decide
/-- L1-6: pattern B after pattern A, under SHIFT and under FREEZE. -/
theorem test_transmit_models :
    let s := liveState 8 2 [true, false, true, true, false, false, false, false]
    let f := { s with params := { s.params with chainModel := .freeze } }
    ((chainOf (exec (.transmit [0x01#8] 2) s)).map (·.2) =
      some [false, true, true, false, true, true, false, false]) ∧
    ((chainOf (exec (.transmit [0x01#8] 2) f)).map (·.2) =
      some [false, true, true, true, false, false, false, false]) := by decide
/-- L2-S: SET_ACTIVE clamps at both ends. -/
theorem test_setActive :
    ((nextOf (exec (.setActive (-1)) (liveState 8 8 []))).map (·.active) = some 0) ∧
      ((nextOf (exec (.setActive 9) (liveState 8 2 []))).map (·.active) = some 8) := by decide
/-- L2-C: DESTROY clears all three outputs although ACTIVE is 1, then releases. -/
theorem test_destroy :
    traceOf (exec (.destroy 7) (liveState 3 1 [true, true, true])) =
      some [6, 3, 2, 6, 3, 2, 6, 3, 2, 0xB, 0xA, 0, 4, 8] ∧
    (nextOf (exec (.destroy 7) (liveState 3 1 [true, true, true]))).map (fun s => (s.life, s.out.mode, s.out.chain.q)) =
      some (.released, ⟨.input, .input, .input⟩, [false, false, false]) := by decide
/-- L2-P: SEND_BIT(1) leaves the clock LOW and the data line HIGH. -/
theorem test_sendBit :
    (nextOf (exec (.sendBit true) live3)).map (fun s => (codes s.out.trace, s.out.level)) =
      some ([7, 3, 2], ⟨.low, .high, .low⟩) := by decide
/-- L2-P: LATCH leaves the latch line LOW. -/
theorem test_latch :
    (nextOf (exec .latch live3)).map (fun s => (codes s.out.trace, s.out.level.lclk)) = some ([0xB, 0xA], .low) := by
  decide
/-- L2-X: CLEAR of three outputs, and CLEAR with two outputs on a chain of four stages. -/
theorem test_clear :
    chainOf (exec .clear (liveState 3 1 [true, true, true])) = some ([false, false, false], [false, false, false]) ∧
      chainOf (exec .clear (liveState 2 2 [true, true, true, true])) =
        some ([false, false, true, true], [false, false, true, true]) := by decide
/-- L2-P: BYTE_TO_BITS. -/
theorem test_byteToBits :
    byteToBits 0xA5#8 8 = [true, false, true, false, false, true, false, true] ∧
      byteToBits 0x05#8 3 = [true, false, true] ∧
      byteToBits 0x80#8 8 = [false, false, false, false, false, false, false, true] ∧
      byteToBits 0xFE#8 1 = [false] ∧ byteToBits 0x00#8 0 = [] := by decide
/-- L2-K: shift and latch edges applied directly, under both models. -/
theorem test_chain :
    let c : Chain := { s := [true, true, false, false], q := [], j := 0 }
    ((c.shiftEdge .shift true).shiftEdge .shift false).latchEdge .shift =
        { s := [false, true, true, true], q := [false, true, true, true], j := 0 } ∧
      ((c.shiftEdge .freeze true).shiftEdge .freeze false).latchEdge .freeze =
        { s := [false, true, false, false], q := [false, true, false, false], j := 0 } := by decide
/-- L2-F: IllegalCommand precedes NoChannel; a faulted block takes no step. -/
theorem test_faults :
    (nextOf (step (at1 State.reset 0x0500000000#40 abc []))).map (·.fault) = some ⟨1, some (word 0x0500000000#40)⟩ ∧
      faultOf (step (at1 stoppedState 0x0000000004#40 abc [])) = some (.stopped 1 (some (word 0x0700000000#40))) := by decide

/-! ### Witnesses: a state and operands that meet the hypotheses of each statement with hypotheses -/

theorem live3_live : LiveInv live3 := ⟨by decide, by decide, by decide, by decide, by decide⟩

theorem live3_inv : Inv live3 :=
  ⟨by decide, by decide, fun _ => live3_live, fun h => absurd h (by decide), fun h => absurd h (by decide),
    by decide, by decide, by decide, by decide⟩

theorem live3Strict_live : LiveInv live3Strict := ⟨by decide, by decide, by decide, by decide, by decide⟩

theorem released_inv : Inv released :=
  ⟨by decide, by decide, fun h => absurd h (by decide), fun _ => ⟨by decide, by decide⟩, fun h => absurd h (by decide),
    by decide, by decide, by decide, by decide⟩

theorem reset_inv : Inv State.reset :=
  ⟨by decide, by decide, fun h => absurd h (by decide), fun h => absurd h (by decide),
    fun _ => ⟨by decide, by decide, by decide, by decide, by decide⟩, by decide, by decide, by decide, by decide⟩

theorem long_inv (model : ChainModel) : Inv (long model) := by
  cases model <;>
    exact ⟨by decide, by decide, fun _ => ⟨by decide, by decide, by decide, by decide, by decide⟩,
      fun h => absurd h (by decide), fun h => absurd h (by decide), by decide, by decide, by decide, by decide⟩

/-- `live3` with TRANSMIT [0x01], 2 at the port. -/
def live3Transmit : State := at1 live3 0x0100000002#40 abc [0x01#8]

theorem live3Transmit_boundary : BoundaryInv live3Transmit :=
  ⟨⟨by decide, by decide, fun _ => ⟨by decide, by decide, by decide, by decide, by decide⟩,
    fun h => absurd h (by decide), fun h => absurd h (by decide), by decide, by decide, by decide, by decide⟩,
    by decide, by decide⟩

theorem witness_StepKeepsInvariant :
    (Inv live3Transmit ∧ ∃ t, step live3Transmit = .next t) ∧ (Inv released ∧ ∃ t, step released = .next t) ∧
      (Inv State.reset ∧ ∃ t, step State.reset = .next t) :=
  ⟨⟨live3Transmit_boundary.inv, _, rfl⟩, ⟨released_inv, _, rfl⟩, reset_inv, _, rfl⟩

theorem witness_StepKeepsCommandBoundary : BoundaryInv live3Transmit ∧ ∃ t, step live3Transmit = .next t :=
  ⟨live3Transmit_boundary, _, rfl⟩

theorem witness_CountsFitTheirRegisters : Inv live3 := live3_inv

/-- The default width and a narrow one, at both ends of the range. -/
theorem witness_DecodeOfEncode :
    1 ≤ 32 ∧ wellFormed 32 (.construct abc 2147483647) = true ∧ wellFormed 32 (.transmit [0xFF#8] (-2147483648)) = true ∧
      wellFormed 32 (.setActive (-1)) = true ∧ wellFormed 32 (.destroy 5) = true ∧
      wellFormed 32 (.sendBit true) = true ∧ wellFormed 32 .latch = true ∧ wellFormed 32 .clear = true ∧
      1 ≤ 12 ∧ wellFormed 12 (.transmit [] 2047) = true ∧ wellFormed 12 (.setActive (-2048)) = true := by decide

theorem witness_EncodeOfDecode :
    decode (.command ⟨word 0x017FFFFFFF#40, abc, [0xA5#8]⟩) = .ok (.transmit [0xA5#8] 2147483647) ∧
      decode (.command ⟨word 0x0080000000#40, deF, [0xA5#8]⟩) = .ok (.construct deF (-2147483648)) ∧
      decode (.micro 0b011#3) = .ok .clear := by decide

theorem witness_DecodeByOpcode :
    (0x00FFFFFFFF#40 >>> 32).toNat = 0 ∧ (0x01FFFFFFFF#40 >>> 32).toNat = 1 ∧
      (0x02FFFFFFFF#40 >>> 32).toNat = 2 ∧ (0x03FFFFFFFF#40 >>> 32).toNat = 3 ∧
      4 ≤ (0x0400000000#40 >>> 32).toNat ∧ 4 ≤ (0xFFFFFFFFFF#40 >>> 32).toNat := by decide

theorem witness_DecodedIsWellFormed :
    decode (.command ⟨word 0x0280000000#40, abc, []⟩) = .ok (.setActive (-2147483648)) ∧
      decode (.micro 0b010#3) = .ok .latch := by decide

theorem witness_HostCannotIssueMicroOps :
    decode (.command ⟨word 0x0312345678#40, abc, []⟩) = .ok (.destroy 0x12345678) ∧
      assembleLine 32 [] "SET_ACTIVE 4".toList = .ok (some (.setActive 4)) := by decide

theorem witness_EventCodesRoundTrip :
    12 ≤ (0xC#4).toNat ∧ decodeEvent 0xB#4 = some ⟨.lclk, .write .high⟩ := by decide

/-- The default field, the narrowest one that carries every count up to 1024, and the narrowest of all. -/
theorem witness_ArgumentWidthCarriesEveryCount :
    bitlen 1024 + 1 ≤ 32 ∧ bitlen 1024 + 1 ≤ 12 ∧ 1024 ≤ 1024 ∧ bitlen 0 + 1 ≤ 2 ∧ 0 ≤ 0 ∧
      1024 ≤ Config.defaults.maxSerialBits := by decide

theorem witness_ArgumentIsSignExtended :
    1 ≤ 32 ∧ 1 ≤ 1 ∧ (0x0380000000#40 >>> 32).toNat ≤ 3 := by decide

/-- A command of the block's width stands at the port of a block that has not stopped. -/
def atPort (s : State) (c : Command) : Prop :=
  ¬stopped s ∧ s.useq = [] ∧ s.port = [c] ∧ c.word.argWidth = s.params.argWidth

/-- A word of 20 bits at the port of a block whose words have 40. -/
def otherWidth : State := { live3 with port := [⟨⟨12, 0x01FFD#20⟩, abc, []⟩] }

theorem witness_StepRunsTheDecodedInstruction :
    (¬stopped { live3 with useq := [0b010#3] } ∧ decode (.micro 0b010#3) = .ok .latch) ∧
      (atPort live3Transmit ⟨word 0x0100000002#40, abc, [0x01#8]⟩ ∧
        decode (.command ⟨word 0x0100000002#40, abc, [0x01#8]⟩) = .ok (.transmit [0x01#8] 2)) ∧
      (¬stopped otherWidth ∧ otherWidth.useq = [] ∧ otherWidth.port = [⟨⟨12, 0x01FFD#20⟩, abc, []⟩] ∧
        otherWidth.params.argWidth ≠ 12) ∧
      (¬stopped live3 ∧ live3.useq = [] ∧ live3.port = []) := by
  unfold atPort; decide

theorem witness_ReservedOpcodeRaisesIllegalCommand :
    atPort (at1 live3 0x0400000000#40 abc []) ⟨word 0x0400000000#40, abc, []⟩ ∧
      4 ≤ (0x0400000000#40 >>> 32).toNat := by
  unfold atPort; decide

theorem witness_ReservedMicroOpIsRefused :
    let s := { live3 with useq := [0b100#3] }
    ¬stopped s ∧ s.useq = [0b100#3] ∧ 4 ≤ (0b100#3).toNat := by decide

/-- One state for each fault; the TRANSMIT overruns by one bit. -/
theorem witness_FaultTable :
    atPort (at1 live3 0x0400000000#40 abc []) ⟨word 0x0400000000#40, abc, []⟩ ∧
      (atPort (at1 released 0x0100000001#40 abc []) ⟨word 0x0100000001#40, abc, []⟩ ∧ released.life ≠ .live) ∧
      (atPort (at1 State.reset 0x0200000001#40 abc []) ⟨word 0x0200000001#40, abc, []⟩ ∧ State.reset.life ≠ .live) ∧
      atPort (at1 State.reset 0x0300000001#40 abc []) ⟨word 0x0300000001#40, abc, []⟩ ∧
      (atPort (at1 live3 0x0000000002#40 abc []) ⟨word 0x0000000002#40, abc, []⟩ ∧ live3.life = .live) ∧
      atPort (at1 State.reset 0x0000000002#40 ⟨⟨1⟩, ⟨2⟩, ⟨2⟩⟩ []) ⟨word 0x0000000002#40, ⟨⟨1⟩, ⟨2⟩, ⟨2⟩⟩, []⟩ ∧
      (atPort (at1 live3Strict 0x0100000001#40 abc []) ⟨word 0x0100000001#40, abc, []⟩ ∧ live3Strict.life = .live ∧
        overruns live3Strict [] 1) := by
  unfold atPort overruns effOf; decide

/-- The clauses of `FaultTable` under which no fault is recorded, and its clause about a stopped block. -/
theorem witness_FaultTable_noFault :
    (atPort (at1 State.reset 0x0000000002#40 abc []) ⟨word 0x0000000002#40, abc, []⟩ ∧ ¬pinsAlias abc) ∧
      (atPort (at1 live3Strict 0x0100000002#40 abc [0x01#8]) ⟨word 0x0100000002#40, abc, [0x01#8]⟩ ∧
        ¬overruns live3Strict [0x01#8] 2) ∧
      (atPort (at1 live3 0x0200000001#40 abc []) ⟨word 0x0200000001#40, abc, []⟩ ∧
        atPort (at1 live3 0x0300000001#40 abc []) ⟨word 0x0300000001#40, abc, []⟩) ∧
      (stopped (at1 stoppedState 0x0000000002#40 abc []) ∧ stoppedState.useq = [] ∧ stoppedState.params.argWidth = 32) := by
  unfold atPort overruns effOf; decide

theorem witness_FaultOnlyByTable :
    (∃ t, exec (.setActive 1) released = .next t ∧ t.fault ≠ released.fault) ∧
      (∃ t, exec (.construct deF 1) live3 = .next t ∧ t.fault ≠ live3.fault) ∧
      (∃ t, exec (.construct ⟨⟨1⟩, ⟨1⟩, ⟨2⟩⟩ 1) State.reset = .next t ∧ t.fault ≠ State.reset.fault) ∧
      ∃ t, exec (.transmit [] 1) live3Strict = .next t ∧ t.fault ≠ live3Strict.fault :=
  ⟨⟨_, rfl, by decide⟩, ⟨_, rfl, by decide⟩, ⟨_, rfl, by decide⟩, _, rfl, by decide⟩

theorem witness_FaultsArePrecise :
    (∃ t, step (at1 live3 0x0400000000#40 abc []) = .next t ∧ t.fault ≠ live3.fault) ∧
      (∃ t, exec (.destroy 1) released = .next t ∧ t.fault ≠ released.fault) ∧
      (∃ t, exec (.transmit [0xFF#8] 9) { live3Strict with total := 9, active := 9 } = .next t ∧
        t.fault ≠ live3Strict.fault) ∧ [0x00#8].length = [0xFF#8].length :=
  ⟨⟨_, rfl, by decide⟩, ⟨_, rfl, by decide⟩, ⟨_, rfl, by decide⟩, rfl⟩

theorem witness_StoppedBlockHasNoStep : stoppedState.fault.code ≠ 0 := by decide

theorem witness_FaultedRunNeverCompletes : failed stoppedState := by decide

theorem witness_ConstructCompletes :
    (¬stopped live3 ∧ live3.life = .live) ∧
      (¬stopped released ∧ released.life ≠ .live ∧ (⟨10⟩ : PinId) = ⟨10⟩) ∧
      (¬stopped released ∧ released.life ≠ .live ∧ deF.sclk ≠ deF.sdata ∧ deF.sclk ≠ deF.lclk ∧ deF.sdata ≠ deF.lclk) ∧
      (¬stopped State.reset ∧ State.reset.life ≠ .live) := by decide

/-- A chain as long as TOTAL, one that a board fixes at one stage, and one of four stages, under both chain models. -/
theorem witness_ConstructClearsTheChain :
    (∃ t, exec (.construct deF 2) released = .next t ∧ t.fault = released.fault ∧
        chainStages released.params.chainLength t.total ≤ t.total) ∧
      (∃ t, exec (.construct deF 2) (board 1 .shift) = .next t ∧ t.fault = (board 1 .shift).fault ∧ 1 ≤ t.total) ∧
      (∃ t, exec (.construct deF 2) (board 4 .shift) = .next t ∧ t.fault = (board 4 .shift).fault ∧ t.total < 4) ∧
      ∃ t, exec (.construct deF 2) (board 4 .freeze) = .next t ∧ t.fault = (board 4 .freeze).fault ∧ t.total < 4 :=
  ⟨⟨_, rfl, by decide, by decide⟩, ⟨_, rfl, by decide, by decide⟩, ⟨_, rfl, by decide, by decide⟩, _, rfl, by decide,
    by decide⟩

theorem witness_DestroyCompletes :
    (¬stopped released ∧ released.life ≠ .live) ∧
      (¬stopped live3 ∧ live3.life = .live ∧ live3.pins = some abc) := by decide

/-- TOTAL positive, and TOTAL = 0. -/
theorem witness_DestroyLevels :
    (LiveInv live3 ∧ live3.life = .live ∧ ∃ t, exec (.destroy 0) live3 = .next t) ∧
      (LiveInv { live3 with total := 0 } ∧ ∃ t, exec (.destroy 0) { live3 with total := 0 } = .next t) :=
  ⟨⟨live3_live, by decide, _, rfl⟩, ⟨by decide, by decide, by decide, by decide, by decide⟩, _, rfl⟩

/-- A chain of TOTAL stages, and one of four stages with TOTAL = 2, under both chain models. -/
theorem witness_DestroyClearsTheChain :
    (Inv live3 ∧ live3.life = .live ∧ (∃ t, exec (.destroy 0) live3 = .next t) ∧
        live3.out.chain.s.length ≤ live3.total) ∧
      (Inv (long .shift) ∧ (long .shift).life = .live ∧ (∃ t, exec (.destroy 0) (long .shift) = .next t) ∧
        2 < (long .shift).out.chain.s.length) ∧
      (Inv (long .freeze) ∧ (long .freeze).life = .live ∧ (∃ t, exec (.destroy 0) (long .freeze) = .next t) ∧
        2 < (long .freeze).out.chain.s.length ∧ (long .freeze).out.chain.j = 0) :=
  ⟨⟨live3_inv, by decide, ⟨_, rfl⟩, by decide⟩, ⟨long_inv .shift, by decide, ⟨_, rfl⟩, by decide⟩,
    long_inv .freeze, by decide, ⟨_, rfl⟩, by decide, by decide⟩

theorem witness_SetUpAndReleaseOrder :
    (∃ t, exec (.construct deF 1) released = .next t ∧ t.fault = released.fault) ∧
      (live3.pins = some abc ∧ ∃ t, exec (.destroy 1) live3 = .next t ∧ t.fault = live3.fault) ∧
      (released.life = .released ∧ (∃ t, step released = .next t) ∧
        ∃ t, step (at1 released 0x0000000001#40 deF []) = .next t) :=
  ⟨⟨_, rfl, rfl⟩, ⟨rfl, _, rfl, rfl⟩, rfl, ⟨_, rfl⟩, _, rfl⟩

theorem witness_DestroyIgnoresItsArgument :
    (0x0312345678#40 >>> 32).toNat = 3 ∧ live3.life = .live ∧ (word 0x0200000001#40).argWidth = 32 ∧
      decode (.command ⟨word 0x0200000001#40, abc, []⟩) = .ok (.setActive 1) ∧
      decode (.command ⟨word 0x0200000001#40, deF, [0x01#8]⟩) = .ok (.setActive 1) := by decide

theorem witness_TransmitCompletes :
    (¬stopped released ∧ released.life ≠ .live) ∧
      (¬stopped live3Strict ∧ live3Strict.life = .live ∧ overruns live3Strict [] 1) ∧
      (live3Strict.pins = some abc ∧ ¬overruns live3Strict [] 0 ∧ ¬overruns live3Strict [0x01#8] 2) ∧
      (¬stopped live3 ∧ live3.life = .live ∧ live3.pins = some abc ∧ ¬overruns live3 [] 3) := by
  unfold overruns effOf; decide

/-- ACTIVE = 0, and all of ACTIVE sent. -/
theorem witness_TransmitPulsesExactlyActive :
    (∃ t, exec (.transmit [0x03#8] 2) live3 = .next t ∧ t.fault = live3.fault) ∧
      ∃ t, exec (.transmit [0xFF#8] 3) (liveState 4 0 []) = .next t ∧ t.fault = (liveState 4 0 []).fault :=
  ⟨⟨_, rfl, by decide⟩, _, rfl, by decide⟩

/-- The three cases of the data line: ACTIVE = 0, padding, and none. -/
theorem witness_TransmitLevels :
    Inv live3 ∧ live3.life = .live ∧
      (∃ t, exec (.transmit [0x03#8] 2) live3 = .next t ∧ t.fault = live3.fault) ∧
      dataOf live3 [0x03#8] 2 = live3.active ∧ dataOf live3 [0x03#8] 1 < live3.active ∧
      ∃ t, exec (.transmit [] 0) { live3 with active := 0 } = .next t ∧ t.fault = live3.fault :=
  ⟨live3_inv, by decide, ⟨_, rfl, by decide⟩, by decide, by decide, _, rfl, by decide⟩

theorem witness_TransmitIgnoresUnexaminedBits :
    dataOf live3 [0xFE#8, 0x55#8] 2 = dataOf live3 [0x02#8] 2 ∧
      ∀ k, k < dataOf live3 [0x02#8] 2 → bufBit [0xFE#8, 0x55#8] k = bufBit [0x02#8] k := by decide

theorem witness_TransmitMovesTheChain :
    (LiveInv live3 ∧ live3.life = .live ∧ live3.out.chain.j = 0 ∧
        ∃ t, exec (.transmit [0x01#8] 1) live3 = .next t ∧ t.fault = live3.fault) ∧
      (LiveInv live3Strict ∧ live3Strict.out.chain.j = 0 ∧
        ∃ t, exec (.transmit [0x01#8] 1) live3Strict = .next t ∧ t.fault = live3Strict.fault) :=
  ⟨⟨live3_live, by decide, by decide, _, rfl, by decide⟩, live3Strict_live, by decide, _, rfl, by decide⟩

theorem witness_HostCanClearByTransmit : ¬stopped live3 ∧ live3.life = .live ∧ live3.pins = some abc := by decide

theorem witness_SetActiveCompletes :
    (¬stopped live3 ∧ live3.life = .live) ∧ (¬stopped released ∧ released.life ≠ .live) := by decide

theorem witness_SendBitCompletes : ¬stopped live3 ∧ live3.life = .live ∧ live3.pins = some abc := by decide

theorem witness_SendBitShiftsTheChain :
    (LiveInv live3 ∧ ∃ t, exec (.sendBit false) live3 = .next t) ∧
      LiveInv live3Strict ∧ ∃ t, exec (.sendBit false) live3Strict = .next t :=
  ⟨⟨live3_live, _, rfl⟩, live3Strict_live, _, rfl⟩

theorem witness_LatchCompletes : ¬stopped live3 ∧ live3.life = .live ∧ live3.pins = some abc := by decide

theorem witness_LatchCopiesTheChain : LiveInv live3 ∧ ∃ t, exec .latch live3 = .next t := ⟨live3_live, _, rfl⟩

/-- TOTAL positive, and TOTAL = 0. -/
theorem witness_ClearCompletes :
    (¬stopped live3 ∧ live3.life = .live ∧ live3.pins = some abc ∧ 0 < live3.total) ∧
      (¬stopped (liveState 0 0 []) ∧ (liveState 0 0 []).pins = some abc ∧ (liveState 0 0 []).total = 0) := by decide

/-- A chain of TOTAL stages, and one of four stages with TOTAL = 2, under both chain models. -/
theorem witness_ClearZeroesTheChain :
    (LiveInv live3 ∧ (∃ t, exec .clear live3 = .next t) ∧ live3.out.chain.s.length ≤ live3.total) ∧
      (LiveInv (long .shift) ∧ (∃ t, exec .clear (long .shift) = .next t) ∧ 2 < (long .shift).out.chain.s.length) ∧
      (LiveInv (long .freeze) ∧ (∃ t, exec .clear (long .freeze) = .next t) ∧ (long .freeze).out.chain.j = 0) :=
  ⟨⟨live3_live, ⟨_, rfl⟩, by decide⟩, ⟨(long_inv .shift).live rfl, ⟨_, rfl⟩, by decide⟩,
    (long_inv .freeze).live rfl, ⟨_, rfl⟩, by decide⟩

theorem witness_ClearIsIdempotent :
    ¬stopped live3 ∧ live3.life = .live ∧ live3.pins = some abc ∧ LiveInv live3 ∧
      live3.out.chain.s.length ≤ live3.total :=
  ⟨by decide, by decide, by decide, live3_live, by decide⟩

theorem witness_MicroOpNeedsALiveChannel : ¬stopped released ∧ released.life ≠ .live := by decide

theorem witness_ByteToBitsIsLowBitsFirst :
    (∀ i, i < (1 : Fin 9).val → (0xFE#8).getLsbD i = (0x00#8).getLsbD i) ∧
      ∀ i, i < (8 : Fin 9).val → (0xFE#8).getLsbD i = (0xFE#8).getLsbD i := by decide

theorem witness_RegisterWriters :
    (∃ t, exec (.setActive 1) live3 = .next t) ∧ (∃ t, exec (.construct deF 1) released = .next t) ∧
      ∃ t, exec (.destroy 1) live3 = .next t :=
  ⟨⟨_, rfl⟩, ⟨_, rfl⟩, _, rfl⟩

theorem witness_OnlyOwnedPinsAreDriven :
    (∃ t, step live3Transmit = .next t) ∧ (∃ t, step (at1 released 0x0000000001#40 deF []) = .next t) ∧
      released.life ≠ .live ∧ ∃ t, step released = .next t ∧ t.life ≠ .live :=
  ⟨⟨_, rfl⟩, ⟨_, rfl⟩, by decide, _, rfl, by decide⟩

theorem witness_PinStateFollowsTheTrace :
    ∃ t es, step live3Transmit = .next t ∧ t.out.trace = live3Transmit.out.trace ++ es ∧ es.length = 8 :=
  ⟨_, _, rfl, rfl, rfl⟩

theorem witness_PulseShapes :
    BoundaryInv live3Transmit ∧ ∃ t es, step live3Transmit = .next t ∧ t.out.trace = live3Transmit.out.trace ++ es ∧
      es.length = 8 ∧ es[6]?.map (·.event) = some ⟨.lclk, .write .high⟩ ∧
      es[4]?.map (·.event) = some ⟨.sclk, .write .high⟩ :=
  ⟨live3Transmit_boundary, _, _, rfl, rfl, rfl, rfl, rfl⟩

theorem witness_OutputsChangeOnceAtTheLatch : ¬stopped live3 ∧ live3.life = .live ∧ LiveInv live3 :=
  ⟨by decide, by decide, live3_live⟩

theorem witness_CommandsRefineMicroOps :
    (¬stopped live3 ∧ live3.useq = [] ∧ live3.life = .live ∧ live3.pins = some abc ∧ ¬overruns live3 [0x01#8] 2) ∧
      (¬stopped released ∧ released.useq = [] ∧ released.life ≠ .live ∧ ¬pinsAlias deF) := by
  unfold overruns effOf; decide

/-- The same block with another chain and another chain model. -/
theorem witness_ChainNeverAffectsTheBlock :
    withoutChain live3 =
      withoutChain { live3Strict with
        params := { live3.params with chainModel := .freeze }
        out := { live3.out with chain := { s := [], q := [true], j := 7 } }
        stream := 3
        draws := 5 } := by decide

theorem witness_PinIdentifiersAreOpaque : Function.Injective (fun p : PinId => PinId.mk (p.name + 1)) := by
  intro a b h; cases a; cases b; simpa using h

theorem witness_EdgeAndLevelLatchAgree :
    live3.out.level.lclk = .low ∧
      (Inv released ∧ ∃ t, exec (.construct deF 1) released = .next t ∧ t.fault = released.fault ∧ t.pins = some deF) ∧
      (Inv live3 ∧ (∃ t, exec (.destroy 0) live3 = .next t ∧ t.fault = live3.fault ∧ t.pins = some abc) ∧
        ∃ t, exec (.transmit [] 1) live3 = .next t ∧ t.fault = live3.fault ∧ t.pins = some abc) :=
  ⟨by decide, ⟨released_inv, _, rfl, rfl, rfl⟩, live3_inv, ⟨_, rfl, rfl, rfl⟩, _, rfl, rfl, rfl⟩

theorem witness_EventCounts :
    (∃ t, exec (.construct deF 1) released = .next t ∧ t.fault = released.fault) ∧
      (∃ t, exec (.transmit [] 1) live3 = .next t ∧ t.fault = live3.fault) ∧
      (∃ t, exec (.setActive 9) live3 = .next t ∧ t.fault = live3.fault) ∧
      (∃ t, exec (.destroy 1) live3 = .next t ∧ t.fault = live3.fault) ∧
      (∃ t, exec (.sendBit true) live3 = .next t ∧ t.fault = live3.fault) ∧
      (∃ t, exec .latch live3 = .next t ∧ t.fault = live3.fault) ∧
      ∃ t, exec .clear live3 = .next t ∧ t.fault = live3.fault :=
  ⟨⟨_, rfl, rfl⟩, ⟨_, rfl, rfl⟩, ⟨_, rfl, rfl⟩, ⟨_, rfl, rfl⟩, ⟨_, rfl, rfl⟩, ⟨_, rfl, rfl⟩, _, rfl, rfl⟩

theorem live3_boundary : BoundaryInv live3 := ⟨live3_inv, by decide, by decide⟩

theorem witness_CommandsTakeEffectInOrder :
    BoundaryInv live3 ∧ live3.port = [] ∧
      ∃ t, steps [(⟨word 0x0200000001#40, abc, []⟩ : Command)].length (issue live3 [⟨word 0x0200000001#40, abc, []⟩]) = .next t :=
  ⟨live3_boundary, by decide, _, rfl⟩

/-- Two blocks, one of them about to be bound to pins of its own; and two that own one pin, the case of a DESTROY that would
leave them apart. -/
theorem witness_ChannelsAreIndependent :
    (∃ after, systemStep [live3, at1 State.reset 0x0000000001#40 deF []] 1 = .next after) ∧
      abc.sclk ∈ ownedPins live3 ∧ abc.sclk ∈ ownedPins (at1 live3 0x0300000000#40 abc []) :=
  ⟨⟨_, rfl⟩, by decide, by decide⟩

/-- Two blocks just powered on, the second about to be bound. -/
theorem witness_BlocksStayApart :
    SystemInv (addBlock (addBlock [] Config.defaults) Config.defaults) ∧
      ∃ after, systemStep [State.reset, at1 (State.powerOn Config.defaults 1) 0x0000000001#40 deF []] 1 = .next after := by
  refine ⟨⟨by decide, ?_⟩, _, rfl⟩
  intro k s h
  match k, h with
  | 0, h => cases h; rfl
  | 1, h => cases h; rfl

/-- No step is given a meaning by which two live blocks come to share a pin, or while they do (R107, U12). -/
theorem test_sharedPin :
    (match systemStep [live3, at1 State.reset 0x0000000001#40 abc []] 1 with
      | .refused r => some r
      | _ => none) = some .sharedPin ∧
    (match systemStep [live3, at1 live3 0x0300000000#40 abc []] 1 with
      | .refused r => some r
      | _ => none) = some .sharedPin := by decide

/-- A word of another width, a micro-operation outside a live channel, and one whose code is reserved, are refused by name. -/
theorem test_refusals :
    refusalOf (step otherWidth) = some (.wordWidth ⟨12, 0x01FFD#20⟩) ∧
      refusalOf (exec .latch released) = some .microOpOutsideChannel ∧
      refusalOf (step { live3 with useq := [0b101#3] }) = some (.reservedMicroOp 0b101#3) := by decide

end Sys2Proof.Tests
end

/-!
PROOFS. The statements of `00_scope.md`: the width of the argument field (R7) and the opacity of pin identifiers (R11).
-/

namespace Sys2Proof

/-! ### The argument field carries every legal count (R7) -/

theorem lt_two_pow_bitlen (n : Nat) : n < 2 ^ bitlen n := by
  unfold bitlen
  split
  · omega
  · exact Nat.lt_log2_self

/-- A count up to MAX_SERIAL_BITS fits a field with one bit more than MAX_SERIAL_BITS is long: the sign bit. -/
theorem argFits_count {n maxBits v : Nat} (hn : bitlen maxBits + 1 ≤ n) (hv : v ≤ maxBits) : argFits n v = true := by
  have hlt : v < 2 ^ (n - 1) :=
    calc v ≤ maxBits := hv
      _ < 2 ^ bitlen maxBits := lt_two_pow_bitlen maxBits
      _ ≤ 2 ^ (n - 1) := Nat.pow_le_pow_right (by omega) (by omega)
  have hlt' : (v : Int) < 2 ^ (n - 1) := by exact_mod_cast hlt
  simp only [argFits, Bool.and_eq_true, decide_eq_true_eq]
  omega

/-- Settles O13: the field has a sign bit above the bits of MAX_SERIAL_BITS, so every count fits it and is read back. -/
theorem argumentWidthCarriesEveryCount : Obligations.ArgumentWidthCarriesEveryCount := by
  unfold Obligations.ArgumentWidthCarriesEveryCount
  refine ⟨fun n maxBits v opc hn hv => ?_, fun p v hv => ?_, rfl⟩
  · exact ⟨argField_encodeWord (by omega) opc (argFits_count hn hv), opcField_encodeWord n opc v⟩
  · have hfits : argFits p.argWidth v = true := argFits_count p.argWidth_carries hv
    exact ⟨p.argWidth_carries, fun _ => hfits, fun _ => hfits, hfits⟩

end Sys2Proof

namespace Sys2Proof.Safety

open Sys2Proof.Machine

/-! ### Renaming pin identifiers commutes with every layer of the step (R11) -/

variable (f : PinId → PinId)

/-- The output side with the identifiers of its trace renamed: `renameState` on the field `out`. -/
def renameOutput (w : Output) : Output :=
  { w with trace := w.trace.map fun e => { e with pin := f e.pin } }

@[simp] theorem renameState_params (s : State) : (renameState f s).params = s.params := rfl
@[simp] theorem renameState_total (s : State) : (renameState f s).total = s.total := rfl
@[simp] theorem renameState_pins (s : State) : (renameState f s).pins = s.pins.map (renamePinSet f) := rfl
@[simp] theorem renameState_out (s : State) : (renameState f s).out = renameOutput f s.out := rfl
@[simp] theorem renameState_port (s : State) : (renameState f s).port = s.port.map (renameCommand f) := rfl

theorem perRoleGet_renamePinSet (p : PinSet) (r : Role) :
    perRoleGet (renamePinSet f p) r = f (perRoleGet p r) := by
  cases r <;> rfl

/-- The condition of PinAlias compares identifiers only, which an injective renaming keeps. -/
theorem pinsAlias_renamePinSet {f : PinId → PinId} (hf : Function.Injective f) (p : PinSet) :
    pinsAlias (renamePinSet f p) ↔ pinsAlias p := by
  simp only [pinsAlias, renamePinSet, hf.eq_iff]

/-! The operations the meanings share. -/

theorem emit_rename (model : ChainModel) (p : PinSet) (w : Output) (e : PinEvent) :
    emit model (renamePinSet f p) (renameOutput f w) e = renameOutput f (emit model p w e) := by
  simp [emit, renameOutput, traceEvent, perRoleGet_renamePinSet]

theorem emitAll_rename (model : ChainModel) (p : PinSet) (w : Output) (es : List PinEvent) :
    emitAll model (renamePinSet f p) (renameOutput f w) es = renameOutput f (emitAll model p w es) := by
  induction es generalizing w with
  | nil => rfl
  | cons e es ih => rw [emitAll_cons, emit_rename, ih, emitAll_cons]

theorem emitState_rename (s : State) (p : PinSet) (es : List PinEvent) :
    emitState (renameState f s) (renamePinSet f p) es = renameState f (emitState s p es) := by
  simp only [emitState, renameState_out, renameState_params, emitAll_rename]
  rfl

theorem raise_rename (s : State) (cause : FaultCause) (word : CommandWord) :
    raise (renameState f s) cause word = renameState f (raise s cause word) := rfl

theorem redrawChain_rename (s : State) (n : Nat) :
    redrawChain (renameState f s) n = renameState f (redrawChain s n) := rfl

theorem bindChannel_rename (s : State) (p : PinSet) (r : Int) :
    bindChannel (renameState f s) (renamePinSet f p) r = renameState f (bindChannel s p r) := rfl

theorem constructed_rename (s : State) (p : PinSet) (r : Int) :
    constructed (renameState f s) (renamePinSet f p) r = renameState f (constructed s p r) := by
  simp only [constructed, bindChannel_rename, emitState_rename, redrawChain_rename, renameState_params,
    renameState_total]

theorem destroyed_rename (s : State) (p : PinSet) :
    destroyed (renameState f s) (renamePinSet f p) = renameState f (destroyed s p) := by
  simp only [destroyed, emitState_rename, renameState_total]
  rfl

theorem whenRunning_rename (s : State) (o : Host.Outcome State Machine.Fault Machine.Refusal) :
    whenRunning (renameState f s) (mapNext (renameState f) o) = mapNext (renameState f) (whenRunning s o) := by
  by_cases hr : stopped s
  · rw [whenRunning_stopped hr, whenRunning_stopped (s := renameState f s) hr]
    rfl
  · rw [whenRunning_running hr, whenRunning_running (s := renameState f s) hr]

theorem withPins_rename (s : State) {k k' : PinSet → State}
    (hk : ∀ p, k' (renamePinSet f p) = renameState f (k p)) :
    withPins (renameState f s) k' = mapNext (renameState f) (withPins s k) := by
  cases hp : s.pins with
  | none => simp [withPins, hp, mapNext]
  | some p => simp [withPins, hp, mapNext, hk p]

/-! The instructions. -/

theorem runMicroOp_rename (s : State) (es : List PinEvent) :
    runMicroOp (renameState f s) es = mapNext (renameState f) (runMicroOp s es) := by
  unfold runMicroOp
  rw [← whenRunning_rename, apply_ite (mapNext (renameState f)),
    withPins_rename f s fun p => emitState_rename f s p es]
  rfl

theorem execConstruct_rename {f : PinId → PinId} (hf : Function.Injective f) (p : PinSet) (r : Int) (s : State) :
    execConstruct (renamePinSet f p) r (renameState f s) = mapNext (renameState f) (execConstruct p r s) := by
  simp only [execConstruct, ← whenRunning_rename, apply_ite (mapNext (renameState f)), pinsAlias_renamePinSet hf,
    constructed_rename, raise_rename]
  rfl

theorem execTransmit_rename (buf : List Byte) (n : Int) (s : State) :
    execTransmit buf n (renameState f s) = mapNext (renameState f) (execTransmit buf n s) := by
  unfold execTransmit
  rw [← whenRunning_rename, apply_ite (mapNext (renameState f)), apply_ite (mapNext (renameState f)),
    withPins_rename f s fun p => emitState_rename f s p _]
  rfl

theorem execSetActive_rename (n : Int) (s : State) :
    execSetActive n (renameState f s) = mapNext (renameState f) (execSetActive n s) := by
  unfold execSetActive
  rw [← whenRunning_rename, apply_ite (mapNext (renameState f))]
  rfl

theorem execDestroy_rename (a : Int) (s : State) :
    execDestroy a (renameState f s) = mapNext (renameState f) (execDestroy a s) := by
  unfold execDestroy
  rw [← whenRunning_rename, apply_ite (mapNext (renameState f)), withPins_rename f s (destroyed_rename f s)]
  rfl

theorem exec_rename {f : PinId → PinId} (hf : Function.Injective f) (i : Instr) (s : State) :
    exec (renameInstr f i) (renameState f s) = mapNext (renameState f) (exec i s) := by
  cases i with
  | construct p r => exact execConstruct_rename hf p r s
  | transmit buf n => exact execTransmit_rename f buf n s
  | setActive n => exact execSetActive_rename f n s
  | destroy a => exact execDestroy_rename f a s
  | sendBit d => exact runMicroOp_rename f s (sendBitEvents d)
  | latch => exact runMicroOp_rename f s latchEvents
  | clear => exact runMicroOp_rename f s (clearEvents s.total)

/-! Decoding and fetching. -/

theorem decodeCommand_rename (c : Command) :
    decodeCommand (renameCommand f c) = (decodeCommand c).map (renameInstr f) := by
  simp only [decodeCommand, apply_ite (Except.map (renameInstr f))]
  rfl

theorem decodeMicro_renameInstr {u : MicroCode} {i : Instr} (h : decodeMicro u = .ok i) : renameInstr f i = i := by
  obtain ⟨d, -, rfl⟩ | ⟨-, rfl⟩ | ⟨-, rfl⟩ := decodeMicro_cases h <;> rfl

/-- What a fetch finds, with every pin identifier renamed. -/
def renameFetched : Fetched → Fetched
  | .stopped code info => .stopped code info
  | .idle => .idle
  | .instr i s => .instr (renameInstr f i) (renameState f s)
  | .illegal word s => .illegal word (renameState f s)
  | .width word => .width word
  | .reserved code => .reserved code

theorem fetch_rename_micro {s : State} {u : MicroCode} {us : List MicroCode} (hr : ¬stopped s)
    (hu : s.useq = u :: us) : fetch (renameState f s) = renameFetched f (fetch s) := by
  cases hd : decodeMicro u with
  | ok i =>
    rw [fetch_micro hr hu hd, fetch_micro (s := renameState f s) hr hu hd, renameFetched, decodeMicro_renameInstr f hd]
    rfl
  | error e => rw [fetch_reserved hr hu hd, fetch_reserved (s := renameState f s) hr hu hd, renameFetched]

theorem fetch_rename_command {s : State} {c : Command} {cs : List Command} (hr : ¬stopped s) (hu : s.useq = [])
    (hp : s.port = c :: cs) : fetch (renameState f s) = renameFetched f (fetch s) := by
  have hp' : (renameState f s).port = renameCommand f c :: cs.map (renameCommand f) := by simp [hp]
  by_cases hw : c.word.argWidth = s.params.argWidth
  · cases hd : decodeCommand c with
    | ok i =>
      have hd' : decodeCommand (renameCommand f c) = .ok (renameInstr f i) := by rw [decodeCommand_rename, hd]; rfl
      rw [fetch_command hr hu hp hw hd, fetch_command (s := renameState f s) hr hu hp' hw hd']
      rfl
    | error e =>
      have hd' : decodeCommand (renameCommand f c) = .error e := by rw [decodeCommand_rename, hd]; rfl
      rw [fetch_illegal hr hu hp hw hd, fetch_illegal (s := renameState f s) hr hu hp' hw hd']
      rfl
  · rw [fetch_width hr hu hp hw, fetch_width (s := renameState f s) hr hu hp' hw]
    rfl

theorem fetch_rename (s : State) : fetch (renameState f s) = renameFetched f (fetch s) := by
  by_cases hr : stopped s
  · rw [fetch_stopped hr, fetch_stopped (s := renameState f s) hr]
    rfl
  cases hu : s.useq with
  | cons u us => exact fetch_rename_micro f hr hu
  | nil =>
    cases hp : s.port with
    | cons c cs => exact fetch_rename_command f hr hu hp
    | nil =>
      have hp' : (renameState f s).port = [] := by simp [hp]
      rw [fetch_idle hr hu hp, fetch_idle (s := renameState f s) hr hu hp', renameFetched]

/-- Settles O52: renaming commutes with the fetch and with every instruction; PinAlias alone compares identifiers, and only
for equality. -/
theorem pinIdentifiersAreOpaque : Obligations.PinIdentifiersAreOpaque := by
  unfold Obligations.PinIdentifiersAreOpaque
  intro f hf s
  rw [step, step, fetch_rename]
  cases fetch s with
  | instr i t => exact exec_rename hf i t
  | stopped | idle | illegal | width | reserved => rfl

end Sys2Proof.Safety

/-!
PROOFS. The statements of `30_encoding.md`: the argument field (R50), the reserved opcodes (R54), DESTROY's argument (R53) and
the pin event codes (R58).
-/

namespace Sys2Proof

open Sys2Proof.Machine Sys2Proof.Safety

/-! ### The argument field and the four opcodes (R50, R51) -/

/-- The field read as two's complement: its unsigned value, less `2^n` where its top bit is set (R14, R50). -/
theorem argField_eq {n : Nat} (hn : 1 ≤ n) (w : BitVec (n + 8)) :
    argField n w = (w.toNat % 2 ^ n : Nat) - (if w.getLsbD (n - 1) then (2 ^ n : Int) else 0) := by
  have hmsb : (w.setWidth n).msb = w.getLsbD (n - 1) := by
    simp [BitVec.msb_eq_getLsbD_last, show n - 1 < n by omega]
  rw [argField, sext, BitVec.toInt_eq_msb_cond, hmsb, BitVec.toNat_setWidth]
  split
  · push_cast; rfl
  · rw [Int.sub_zero]

theorem argField_bounds {n : Nat} (w : BitVec (n + 8)) :
    -(2 ^ (n - 1) : Int) ≤ argField n w ∧ argField n w ≤ 2 ^ (n - 1) - 1 := by
  have hfits := argField_fits w
  simp only [argFits, Bool.and_eq_true, decide_eq_true_eq] at hfits
  omega

/-- A word whose opcode is below 4 decodes, whatever its argument. -/
theorem decodeCommand_of_opcode_le {c : Command} (h : (c.word.bits >>> c.word.argWidth).toNat ≤ 3) :
    ∃ i, decodeCommand c = .ok i := by
  obtain h0 | h1 | h2 | h3 : (c.word.bits >>> c.word.argWidth).toNat = 0 ∨
      (c.word.bits >>> c.word.argWidth).toNat = 1 ∨ (c.word.bits >>> c.word.argWidth).toNat = 2 ∨
      (c.word.bits >>> c.word.argWidth).toNat = 3 := by omega
  · exact ⟨_, decodeCommand_construct (wordOpc_of_shift h0)⟩
  · exact ⟨_, decodeCommand_transmit (wordOpc_of_shift h1)⟩
  · exact ⟨_, decodeCommand_setActive (wordOpc_of_shift h2)⟩
  · exact ⟨_, decodeCommand_destroy (wordOpc_of_shift h3)⟩

/-- Settles O14: the argument is the field's two's-complement value, and each of the four opcodes decodes. -/
theorem argumentIsSignExtended : Obligations.ArgumentIsSignExtended := by
  unfold Obligations.ArgumentIsSignExtended
  refine ⟨fun n w hn => ?_, fun c hc => decodeCommand_of_opcode_le hc⟩
  obtain ⟨hlo, hhi⟩ := argField_bounds w
  exact ⟨hlo, hhi, argField_eq hn w⟩

/-! ### The pin event codes (R58) -/

theorem decodeEvent_eventCode (e : PinEvent) : decodeEvent (eventCode e) = some e := by
  obtain ⟨role, act⟩ := e
  cases act with
  | setMode m => cases role <;> cases m <;> rfl
  | write l => cases role <;> cases l <;> rfl

/-- A code from 0xC up is no event; every other code is the code of the event it decodes to. -/
theorem map_eventCode_decodeEvent :
    ∀ c : EventCode, (decodeEvent c).map eventCode = if 12 ≤ c.toNat then none else some c := by decide

theorem decodeEvent_eq_none_iff (c : EventCode) : decodeEvent c = none ↔ 12 ≤ c.toNat := by
  have hcode := map_eventCode_decodeEvent c
  rw [← Option.map_eq_none_iff (f := eventCode), hcode]
  simp

theorem eventCode_of_decodeEvent {c : EventCode} {e : PinEvent} (h : decodeEvent c = some e) : eventCode e = c := by
  have hlt : ¬12 ≤ c.toNat := by rw [← decodeEvent_eq_none_iff, h]; simp
  have hcode := map_eventCode_decodeEvent c
  rw [h, if_neg hlt] at hcode
  exact Option.some.inj hcode

/-- Settles O12: the twelve codes and the two strings by evaluation, the round trips by the two lemmas above. -/
theorem eventCodesRoundTrip : Obligations.EventCodesRoundTrip := by
  unfold Obligations.EventCodesRoundTrip
  exact ⟨rfl, by decide, rfl, decodeEvent_eventCode, decodeEvent_eq_none_iff, fun _ _ => eventCode_of_decodeEvent⟩

/-! ### Reserved opcodes (R54) -/

/-- Settles O16: the decoder rejects the word, so the step takes it from the port and raises IllegalCommand. -/
theorem reservedOpcodeRaisesIllegalCommand : Obligations.ReservedOpcodeRaisesIllegalCommand := by
  unfold Obligations.ReservedOpcodeRaisesIllegalCommand
  intro s c cs hrun huseq hport hwidth hopc
  rw [step, fetch_illegal hrun huseq hport hwidth (decodeCommand_reserved hopc)]
  rfl

/-! ### DESTROY and its argument (R53) -/

/-- On a live channel the argument of DESTROY is not looked at. -/
theorem execDestroy_live {s : State} (hl : s.life = .live) (a : Int) :
    execDestroy a s = whenRunning s (withPins s (destroyed s)) :=
  congrArg (whenRunning s) (if_neg fun h => h hl)

/-- Encoding a decoded command gives its word back: no two words of one width decode to one instruction (R49 to R51). -/
theorem encode_of_decodeCommand {c : Command} {i : Instr} (h : decodeCommand c = .ok i) :
    ∃ pins buf, encode c.word.argWidth i = .command ⟨c.word, pins, buf⟩ := by
  obtain ⟨ho, rfl⟩ | ⟨ho, rfl⟩ | ⟨ho, rfl⟩ | ⟨ho, rfl⟩ := decodeCommand_cases h <;>
    exact ⟨_, _, by rw [encode, commandWord_fields ho]⟩

/-- This holds of DESTROY too: its argument is kept, because a fault records the whole word (R87). -/
theorem word_eq_of_decodeCommand {c d : Command} {i : Instr} (hw : c.word.argWidth = d.word.argWidth)
    (hc : decodeCommand c = .ok i) (hd : decodeCommand d = .ok i) : c.word = d.word := by
  obtain ⟨_, _, hc⟩ := encode_of_decodeCommand hc
  obtain ⟨_, _, hd⟩ := encode_of_decodeCommand hd
  rw [hw, hd] at hc
  injection hc with hcommand
  exact (congrArg Command.word hcommand).symm

/-- Settles O28: opcode 3 selects DESTROY; on a live channel its meaning does not mention the argument; a decoded command
encodes to its own word. -/
theorem destroyIgnoresItsArgument : Obligations.DestroyIgnoresItsArgument := by
  unfold Obligations.DestroyIgnoresItsArgument
  refine ⟨fun c hopc => ?_, fun s a b hl => ?_, by decide, fun c d i hw hc hd _ => word_eq_of_decodeCommand hw hc hd⟩
  · exact ⟨_, decodeCommand_destroy (wordOpc_of_shift hopc)⟩
  · exact (execDestroy_live hl a).trans (execDestroy_live hl b).symm

end Sys2Proof

/-!
PROOFS. The statements of `40_lifecycle.md`: what CONSTRUCT (R61) and DESTROY (R63) do, each with its faults.
-/

namespace Sys2Proof.Safety

open Sys2Proof.Machine

/-! ### CONSTRUCT (R61) -/

/-- CONSTRUCT writes LIFE, TOTAL, ACTIVE, PINS, the output side and the draw counter, and nothing else. -/
theorem constructed_frame (s : State) (p : PinSet) (r : Int) :
    constructed s p r =
      { s with
        life := .live
        total := clampCount r s.params.maxSerialBits
        active := clampCount r s.params.maxSerialBits
        pins := some p
        out := (constructed s p r).out
        draws := (constructed s p r).draws } := rfl

theorem emitted_constructed (s : State) (p : PinSet) (r : Int) :
    emitted s (constructed s p r) p
      (setupTrace ++ zerosTrace (clampCount r s.params.maxSerialBits) ++ latchTrace) := by
  have hcodes : (setupEvents ++ clearEvents (clampCount r s.params.maxSerialBits)).map eventCode =
      setupTrace ++ zerosTrace (clampCount r s.params.maxSerialBits) ++ latchTrace := by
    rw [List.map_append, map_eventCode_clear, ← List.append_assoc]; rfl
  rw [← hcodes]
  exact emitted_of_trace (constructed_trace s p r)

/-- Settles O23: the two faults in the order of R88, else `constructed`, whose frame, trace, MODE and LEVEL are the lemmas
about it. The set-up events are emitted in the order of `setupTrace` itself. -/
theorem constructCompletes : Obligations.ConstructCompletes := by
  unfold Obligations.ConstructCompletes
  intro s p r hrun
  refine ⟨fun hlive => execConstruct_live hrun hlive p r, fun hnl halias => execConstruct_alias hrun hnl halias r,
    fun hnl hclkData hclkLatch hdataLatch => ?_⟩
  have hdistinct : ¬pinsAlias p := by simp [hclkData, hclkLatch, hdataLatch]
  exact ⟨constructed s p r, execConstruct_ok hrun hnl hdistinct r, constructed_frame s p r,
    ⟨setupTrace, .refl _, emitted_constructed s p r⟩, constructed_mode s p r, constructed_level s p r⟩

/-! ### DESTROY (R63) -/

/-- DESTROY writes LIFE and the output side, and nothing else. -/
theorem destroyed_frame (s : State) (p : PinSet) :
    destroyed s p = { s with life := .released, out := (destroyed s p).out } := rfl

theorem emitted_destroyed (s : State) (p : PinSet) :
    emitted s (destroyed s p) p (zerosTrace s.total ++ latchTrace ++ releaseTrace) := by
  have hcodes : (clearEvents s.total ++ releaseEvents).map eventCode =
      zerosTrace s.total ++ latchTrace ++ releaseTrace := by
    rw [List.map_append, map_eventCode_clear]; rfl
  rw [← hcodes]
  apply emitted_of_trace
  rw [destroyed_out, emitAll_trace]

/-- Settles O25: NoChannel, else `destroyed` on the bound pins, whose frame, trace and MODE are the lemmas about it. The
release events are emitted in the order of `releaseTrace` itself. -/
theorem destroyCompletes : Obligations.DestroyCompletes := by
  unfold Obligations.DestroyCompletes
  intro s a hrun
  refine ⟨fun hnl => execDestroy_noChannel hrun hnl a, fun p hlive hpins => ?_⟩
  exact ⟨destroyed s p, execDestroy_ok hrun hlive hpins a, destroyed_frame s p,
    ⟨releaseTrace, .refl _, emitted_destroyed s p⟩, destroyed_mode s p⟩

end Sys2Proof.Safety

/-!
PROOFS. The statements of `41_transmit.md`: what TRANSMIT does, with its two faults (R65 to R69, R71).
-/

namespace Sys2Proof.Safety

open Sys2Proof.Machine

/-! ### TRANSMIT (R65) -/

/-- Emitting events writes the output side, and nothing else. -/
theorem emitState_frame (s : State) (p : PinSet) (es : List PinEvent) :
    emitState s p es = { s with out := (emitState s p es).out } := rfl

/-- The bits TRANSMIT sends, in the terms of R68 and R69: the low bits of the buffer's stream, then the padding zeros. -/
theorem sentBits_eq_bufBits (s : State) (buf : List Byte) (b : Int) :
    sentBits s.active buf b =
      (List.range (dataOf s buf b)).map (bufBit buf) ++ List.replicate (s.active - dataOf s buf b) false := by
  rw [sentBits_eq, dataOf_eq, funext (bufBit_eq_bitAt buf)]

/-- R65, R69, R71: the codes of the data bits, of the padding zeros and of the latch pulse, in this order. -/
theorem emitted_transmit (s : State) (p : PinSet) (buf : List Byte) (b : Int) :
    emitted s (emitState s p (shiftAndLatchEvents (sentBits s.active buf b))) p
      ((List.range (dataOf s buf b)).flatMap (fun k => sendBitTrace (bufBit buf k)) ++
        zerosTrace (s.active - dataOf s buf b) ++ latchTrace) := by
  have hcodes : (shiftAndLatchEvents (sentBits s.active buf b)).map eventCode =
      (List.range (dataOf s buf b)).flatMap (fun k => sendBitTrace (bufBit buf k)) ++
        zerosTrace (s.active - dataOf s buf b) ++ latchTrace := by
    rw [map_eventCode_shiftAndLatch, sentBits_eq_bufBits, List.flatMap_append, List.flatMap_map,
      flatMap_sendBitTrace_zeros]
  rw [← hcodes]
  exact emitted_emitState s p _

/-- Settles O29: the two faults in the order of R88, else the sent bits and the latch pulse on the bound pins, with the frame
and the trace of the lemmas above; no event of a bit or of the latch pulse sets a mode. -/
theorem transmitCompletes : Obligations.TransmitCompletes := by
  unfold Obligations.TransmitCompletes
  intro s buf b hrun
  refine ⟨fun hnl => execTransmit_noChannel hrun hnl buf b, fun hlive hover => execTransmit_overrun hrun hlive hover,
    fun p hlive hfits hpins => ?_⟩
  exact ⟨emitState s p (shiftAndLatchEvents (sentBits s.active buf b)), execTransmit_ok hrun hlive hfits hpins,
    emitState_frame s p _, dataCount_le_active s.active buf b, emitted_transmit s p buf b, shiftAndLatch_mode ..⟩

end Sys2Proof.Safety

/-!
PROOFS. The statements of `42_clear.md`: what CLEAR does (R77).
-/

namespace Sys2Proof.Safety

open Sys2Proof.Machine

/-! ### CLEAR (R77) -/

/-- On a live channel CLEAR emits TOTAL zero bits and one latch pulse on the bound pins. -/
theorem exec_clear_live {s : State} {p : PinSet} (hrun : ¬stopped s) (hlive : s.life = .live) (hpins : s.pins = some p) :
    exec .clear s = .next (emitState s p (clearEvents s.total)) :=
  runMicroOp_live hrun hlive hpins (clearEvents s.total)

/-- R77: the codes of the TOTAL zero bits and of the latch pulse. -/
theorem emitted_clear (s : State) (p : PinSet) :
    emitted s (emitState s p (clearEvents s.total)) p (zerosTrace s.total ++ latchTrace) := by
  rw [← map_eventCode_clear]
  exact emitted_emitState s p _

/-- With no zero bit to send, only the latch pulse moves a line. -/
theorem clear_level_zero (model : ChainModel) (p : PinSet) (w : Output) :
    (emitAll model p w (clearEvents 0)).level = { w.level with lclk := .low } := by
  rw [clearEvents, shiftAndLatch_level]
  rfl

/-- After at least one zero bit and the latch pulse all three lines are LOW. -/
theorem clear_level_pos (model : ChainModel) (p : PinSet) (w : Output) {n : Nat} (hn : 0 < n) :
    (emitAll model p w (clearEvents n)).level = ⟨.low, .low, .low⟩ := by
  have hne : n ≠ 0 := by omega
  rw [clearEvents, shiftAndLatch_level]
  simp [hne, List.getLast?_replicate, bitLevel, levelReg]

/-- LEVEL of the latch line after CLEAR, whatever TOTAL is: the latch pulse comes last. -/
theorem clear_level_lclk (model : ChainModel) (p : PinSet) (w : Output) (n : Nat) :
    (emitAll model p w (clearEvents n)).level.lclk = .low := by
  rw [clearEvents, shiftAndLatch_level]

/-- Settles O40: CLEAR emits `clearEvents TOTAL`, which ACTIVE does not enter; its frame, trace, MODE and LEVEL are the
lemmas about these events, LEVEL by whether a bit is sent. -/
theorem clearCompletes : Obligations.ClearCompletes := by
  unfold Obligations.ClearCompletes
  intro s p hrun hlive hpins
  refine ⟨emitState s p (clearEvents s.total), exec_clear_live hrun hlive hpins, emitState_frame s p _, emitted_clear s p,
    shiftAndLatch_mode .., clear_level_lclk .., fun hpos => ?_, fun hzero => ?_⟩
  · rw [emitState_out, clear_level_pos _ _ _ hpos]
    exact ⟨rfl, rfl⟩
  · rw [emitState_out, hzero, clear_level_zero]
    exact ⟨rfl, rfl⟩

end Sys2Proof.Safety

/-!
PROOFS. The statement of `43_set_active.md`: what SET_ACTIVE does (R79).
-/

namespace Sys2Proof.Safety

open Sys2Proof.Machine

/-- Settles O35: SET_ACTIVE's two answers; the clamp written out in the statement is `clampCount`'s own (R13), and the
record written to FAULT is `raise`'s for NoChannel. -/
theorem setActiveCompletes : Obligations.SetActiveCompletes := by
  unfold Obligations.SetActiveCompletes
  intro s c hrun
  constructor
  · intro hlive
    exact execSetActive_ok hrun hlive c
  · intro hnl
    exact execSetActive_noChannel hrun hnl c

end Sys2Proof.Safety

/-!
PROOFS. The statements of `44_primitives.md`: what SEND_BIT and LATCH do (R81, R82), and the bits BYTE_TO_BITS gives (R83).
-/

namespace Sys2Proof.Safety

open Sys2Proof.Machine

/-! ### BYTE_TO_BITS (R83) -/

theorem byteToBits_eq (x : Byte) (cnt : Fin 9) :
    byteToBits x cnt = (List.range cnt.val).map (fun i => x.getLsbD i) := shiftOut_eq x cnt.val

/-- Settles O44: the loop's bits are the bits at the indices below the count, and those are all that it reads. -/
theorem byteToBitsIsLowBitsFirst : Obligations.ByteToBitsIsLowBitsFirst := by
  unfold Obligations.ByteToBitsIsLowBitsFirst
  intro x y cnt
  refine ⟨byteToBits_eq x cnt, fun hlow => ?_⟩
  rw [byteToBits_eq x, byteToBits_eq y]
  exact List.map_congr_left fun i hi => hlow i (List.mem_range.mp hi)

/-! ### SEND_BIT (R81) -/

/-- On a live channel SEND_BIT(d) emits its three events on the bound pins. -/
theorem exec_sendBit_live {s : State} {p : PinSet} (hrun : ¬stopped s) (hlive : s.life = .live)
    (hpins : s.pins = some p) (d : Bool) : exec (.sendBit d) s = .next (emitState s p (sendBitEvents d)) :=
  runMicroOp_live hrun hlive hpins (sendBitEvents d)

theorem map_eventCode_sendBit (d : Bool) : (sendBitEvents d).map eventCode = sendBitTrace d := by
  cases d <;> rfl

/-- R81: `632` or `732`, by the bit. -/
theorem emitted_sendBit (s : State) (p : PinSet) (d : Bool) :
    emitted s (emitState s p (sendBitEvents d)) p (sendBitTrace d) := by
  rw [← map_eventCode_sendBit]
  exact emitted_emitState s p _

theorem levelReg_bitLevel (d : Bool) : levelReg (bitLevel d) = if d then .high else .low := by
  cases d <;> rfl

/-- Settles O36: the three events of SEND_BIT on the bound pins; none sets a mode, and the lines end as `sendBit_level`
says. -/
theorem sendBitCompletes : Obligations.SendBitCompletes := by
  unfold Obligations.SendBitCompletes
  intro s p d hrun hlive hpins
  refine ⟨emitState s p (sendBitEvents d), exec_sendBit_live hrun hlive hpins d, emitState_frame s p _,
    emitted_sendBit s p d, sendBit_mode .., ?_⟩
  rw [emitState_out, sendBit_level, levelReg_bitLevel]

/-! ### LATCH (R82) -/

/-- On a live channel LATCH emits its two events on the bound pins. -/
theorem exec_latch_live {s : State} {p : PinSet} (hrun : ¬stopped s) (hlive : s.life = .live) (hpins : s.pins = some p) :
    exec .latch s = .next (emitState s p latchEvents) :=
  runMicroOp_live hrun hlive hpins latchEvents

/-- R82: `BA`. -/
theorem emitted_latch (s : State) (p : PinSet) : emitted s (emitState s p latchEvents) p latchTrace :=
  emitted_emitState s p latchEvents

/-- Only an event of the shift clock moves the shift register: any other is at most a latch edge (R98, R100). -/
theorem observe_s_of_role_ne_sclk (model : ChainModel) (mode : PerRole ModeReg) (level : PerRole LevelReg)
    {e : PinEvent} (he : e.role ≠ .sclk) (c : Chain) : (c.observe model mode level e).s = c.s := by
  unfold Chain.observe
  split
  case h_1 hrole _ => exact absurd hrole he
  case h_2 =>
    split
    · exact latchEdge_s model c
    · rfl
  case h_3 => rfl

/-- Events that leave the shift clock alone leave the shift register alone (R98). -/
theorem emitAll_chain_s_of_role_ne_sclk (model : ChainModel) (p : PinSet) (w : Output) (es : List PinEvent)
    (hes : ∀ e ∈ es, e.role ≠ .sclk) : (emitAll model p w es).chain.s = w.chain.s := by
  induction es generalizing w with
  | nil => rfl
  | cons e es ih =>
    obtain ⟨he, hrest⟩ := List.forall_mem_cons.mp hes
    rw [emitAll_cons, ih _ hrest, emit_chain, observe_s_of_role_ne_sclk model _ _ he]

theorem latchEvents_role_ne_sclk : ∀ e ∈ latchEvents, e.role ≠ .sclk := by decide

/-- Settles O38: the two events of LATCH on the bound pins; only the latch line is written, so no other line moves and
neither does the shift register, whatever the pins held before. -/
theorem latchCompletes : Obligations.LatchCompletes := by
  unfold Obligations.LatchCompletes
  intro s p hrun hlive hpins
  exact ⟨emitState s p latchEvents, exec_latch_live hrun hlive hpins, emitState_frame s p _, emitted_latch s p,
    latch_mode .., latch_level .., emitAll_chain_s_of_role_ne_sclk _ p _ _ latchEvents_role_ne_sclk⟩

end Sys2Proof.Safety

/-!
PROOFS. The statements of `60_exceptions.md`: a stopped block (R90), the precision of faults (R89) and the
table of faults (R87) in the order of R88.
-/

namespace Sys2Proof.Safety

open Sys2Proof.Machine

/-! ### A stopped block (R90) -/

theorem exec_stopped {s : State} (h : stopped s) (i : Instr) :
    exec i s = .fault (.stopped s.fault.code s.fault.info) := by
  cases i <;> exact whenRunning_stopped h _

theorem step_stopped {s : State} (h : stopped s) : step s = .fault (.stopped s.fault.code s.fault.info) := by
  rw [step, fetch_stopped h]

/-- Settles O21: the fetch finds a stopped block, every instruction checks for one first, and power-on records no fault. -/
theorem stoppedBlockHasNoStep : Obligations.StoppedBlockHasNoStep := by
  unfold Obligations.StoppedBlockHasNoStep
  exact ⟨fun s h => ⟨step_stopped h, exec_stopped h⟩, fun p stream => by rw [powerOn_fault]⟩

/-! ### An instruction that records a fault does nothing else (R89) -/

/-- A micro-operation records no fault. -/
theorem runMicroOp_fault {s t : State} {es : List PinEvent} (h : runMicroOp s es = .next t) : t.fault = s.fault := by
  obtain ⟨-, -, p, -, rfl⟩ := runMicroOp_next h
  exact emitState_fault s p es

/-- An instruction that completes either leaves FAULT alone or raises a fault and does nothing else. -/
theorem exec_fault_eq_or_raise {i : Instr} {s t : State} (h : exec i s = .next t) :
    t.fault = s.fault ∨ ∃ cause word, t = raise s cause word := by
  cases i with
  | construct p r =>
    obtain ⟨-, ⟨-, ht⟩ | ⟨-, -, ht⟩ | ⟨-, -, rfl⟩⟩ := execConstruct_cases h
    · exact .inr ⟨_, _, ht⟩
    · exact .inr ⟨_, _, ht⟩
    · exact .inl (constructed_fault s p r)
  | transmit buf n =>
    obtain ⟨-, ⟨-, ht⟩ | ⟨-, -, ht⟩ | ⟨-, -, p, -, rfl⟩⟩ := execTransmit_cases h
    · exact .inr ⟨_, _, ht⟩
    · exact .inr ⟨_, _, ht⟩
    · exact .inl (emitState_fault s p _)
  | setActive n =>
    obtain ⟨-, ⟨-, ht⟩ | ⟨-, rfl⟩⟩ := execSetActive_cases h
    · exact .inr ⟨_, _, ht⟩
    · exact .inl rfl
  | destroy a =>
    obtain ⟨-, ⟨-, ht⟩ | ⟨-, p, -, rfl⟩⟩ := execDestroy_cases h
    · exact .inr ⟨_, _, ht⟩
    · exact .inl rfl
  | sendBit | latch | clear => exact .inl (runMicroOp_fault h)

theorem exec_fault_precise {i : Instr} {s t : State} (h : exec i s = .next t) (hf : t.fault ≠ s.fault) :
    t = { s with fault := t.fault } := by
  obtain heq | ⟨cause, word, rfl⟩ := exec_fault_eq_or_raise h
  · exact absurd heq hf
  · rfl

/-- A micro-operation of the sequencer records no fault, so a step that records one has run a command of the port. -/
theorem exec_fault_of_decodeMicro {u : MicroCode} {i : Instr} {s t : State} (hd : decodeMicro u = .ok i)
    (h : exec i s = .next t) : t.fault = s.fault := by
  obtain ⟨d, -, rfl⟩ | ⟨-, rfl⟩ | ⟨-, rfl⟩ := decodeMicro_cases hd <;> exact runMicroOp_fault h

theorem step_fault_precise {s t : State} (h : step s = .next t) (hf : t.fault ≠ s.fault) :
    t = { s with port := t.port, fault := t.fault } := by
  obtain ⟨-, ⟨u, us, i, -, hd, h⟩ | ⟨c, cs, i, -, -, -, -, h⟩ | ⟨c, cs, e, -, -, -, -, rfl⟩ | ⟨-, -, rfl⟩⟩ :=
    step_cases h
  · exact absurd (exec_fault_of_decodeMicro hd h) hf
  · rw [exec_fault_precise h hf]
  · rfl
  · exact absurd rfl hf

/-- The condition of BufferOverrun looks at the buffer's length only. -/
theorem bufferOverrun_of_length_eq {s : State} {buf buf' : List Byte} {n : Int} (hlen : buf'.length = buf.length)
    (h : bufferOverrun s buf n) : bufferOverrun s buf' n := by
  rw [bufferOverrun, hlen]
  exact h

theorem execTransmit_fault_of_length_eq {buf buf' : List Byte} {n : Int} {s t : State}
    (h : execTransmit buf n s = .next t) (hf : t.fault ≠ s.fault) (hlen : buf'.length = buf.length) :
    execTransmit buf' n s = .next t := by
  obtain ⟨hrun, ⟨hnl, rfl⟩ | ⟨hlive, hover, rfl⟩ | ⟨-, -, p, -, rfl⟩⟩ := execTransmit_cases h
  · exact execTransmit_noChannel hrun hnl buf' n
  · exact execTransmit_overrun hrun hlive (bufferOverrun_of_length_eq hlen hover)
  · exact absurd (emitState_fault s p _) hf

/-- Settles O20: what records a fault is `raise`, on the state with the command taken from the port; and the two faults of
TRANSMIT do not look into the buffer. -/
theorem faultsArePrecise : Obligations.FaultsArePrecise := by
  unfold Obligations.FaultsArePrecise
  exact ⟨fun _ _ => step_fault_precise, fun _ _ _ => exec_fault_precise,
    fun _ _ _ _ _ => execTransmit_fault_of_length_eq⟩

/-! ### The table of faults (R87, R88) -/

/-! Outside the conditions of R87 a command that completes records no fault. -/

theorem execConstruct_fault {p : PinSet} {r : Int} {s t : State} (h : execConstruct p r s = .next t)
    (hnl : s.life ≠ .live) (hdistinct : ¬pinsAlias p) : t.fault = s.fault := by
  obtain ⟨-, ⟨hlive, -⟩ | ⟨-, halias, -⟩ | ⟨-, -, rfl⟩⟩ := execConstruct_cases h
  · exact absurd hlive hnl
  · exact absurd halias hdistinct
  · exact constructed_fault s p r

theorem execTransmit_fault {buf : List Byte} {n : Int} {s t : State} (h : execTransmit buf n s = .next t)
    (hlive : s.life = .live) (hfits : ¬bufferOverrun s buf n) : t.fault = s.fault := by
  obtain ⟨-, ⟨hnl, -⟩ | ⟨-, hover, -⟩ | ⟨-, -, p, -, rfl⟩⟩ := execTransmit_cases h
  · exact absurd hlive hnl
  · exact absurd hover hfits
  · exact emitState_fault s p _

theorem execSetActive_fault {n : Int} {s t : State} (h : execSetActive n s = .next t) (hlive : s.life = .live) :
    t.fault = s.fault := by
  obtain ⟨-, ⟨hnl, -⟩ | ⟨-, rfl⟩⟩ := execSetActive_cases h
  · exact absurd hlive hnl
  · rfl

theorem execDestroy_fault {a : Int} {s t : State} (h : execDestroy a s = .next t) (hlive : s.life = .live) :
    t.fault = s.fault := by
  obtain ⟨-, ⟨hnl, -⟩ | ⟨-, p, -, rfl⟩⟩ := execDestroy_cases h
  · exact absurd hlive hnl
  · rfl

/-- The argument of a word, with the field read as the number it is modulo `2^ARG_WIDTH` (R50). -/
theorem wordArg_eq_ofNat (w : CommandWord) : wordArg w = (BitVec.ofNat w.argWidth w.bits.toNat).toInt := by
  have hfield : w.bits.setWidth w.argWidth = BitVec.ofNat w.argWidth w.bits.toNat :=
    BitVec.eq_of_toNat_eq (by rw [BitVec.toNat_setWidth, BitVec.toNat_ofNat])
  rw [wordArg, argField, sext, hfield]

/-- A running block whose next step takes the command `c` from the port and leaves `cs` there (R48, R49). -/
structure NextCommand (s : State) (c : Command) (cs : List Command) : Prop where
  running : ¬stopped s
  sequencer : s.useq = []
  port : s.port = c :: cs
  width : c.word.argWidth = s.params.argWidth

/-- The step runs the instruction that the command decodes to, on the state with the command taken off. -/
theorem NextCommand.step_eq {s : State} {c : Command} {cs : List Command} (hc : NextCommand s c cs) {i : Instr}
    (hd : decodeCommand c = .ok i) : step s = exec i { s with port := cs } := by
  rw [step, fetch_command hc.running hc.sequencer hc.port hc.width hd]

/-- Where that instruction raises a fault, the step records the word that stood at the port (R87): its opcode and argument
make it again. -/
theorem NextCommand.step_raise {s : State} {c : Command} {cs : List Command} (hc : NextCommand s c cs) {i : Instr}
    {opc : Opcode} {cause : FaultCause} (hd : decodeCommand c = .ok i) (hopc : wordOpc c.word = opc)
    (hraise : exec i { s with port := cs } =
      .next (raise { s with port := cs } cause (commandWord s.params.argWidth opc (wordArg c.word)))) :
    step s = .next { s with port := cs, fault := { code := faultCode cause, info := some c.word } } := by
  rw [hc.step_eq hd, hraise, ← hc.width, commandWord_fields hopc]
  rfl

/-- Settles O18: the step runs the instruction of the word's opcode, which answers by the rows of R87 in the order of R88;
each fault records the word itself. -/
theorem faultTable : Obligations.FaultTable := by
  unfold Obligations.FaultTable
  intro s c cs huseq hport hwidth opc arg coincide faulted
  refine ⟨step_stopped, fun hrun => ?_⟩
  have hc : NextCommand s c cs := ⟨hrun, huseq, hport, hwidth⟩
  have hrunTaken : ¬stopped { s with port := cs } := hrun
  have harg : wordArg c.word = arg := wordArg_eq_ofNat c.word
  have hconstruct (h : opc = 0) : wordOpc c.word = opcConstruct := wordOpc_of_shift h
  have htransmit (h : opc = 1) : wordOpc c.word = opcTransmit := wordOpc_of_shift h
  have hsetActive (h : opc = 2) : wordOpc c.word = opcSetActive := wordOpc_of_shift h
  have hdestroy (h : opc = 3) : wordOpc c.word = opcDestroy := wordOpc_of_shift h
  refine ⟨reservedOpcodeRaisesIllegalCommand s c cs hrun huseq hport hwidth, ?noChannel, ?channelLive, ?pinAlias,
    ?bufferOverrun, ?construct, ?transmit, ?setActiveOrDestroy⟩
  case noChannel =>
    rintro (h | h | h) hnl
    · have hopc := htransmit h
      exact hc.step_raise (decodeCommand_transmit hopc) hopc (execTransmit_noChannel hrunTaken hnl _ _)
    · have hopc := hsetActive h
      exact hc.step_raise (decodeCommand_setActive hopc) hopc (execSetActive_noChannel hrunTaken hnl _)
    · have hopc := hdestroy h
      exact hc.step_raise (decodeCommand_destroy hopc) hopc (execDestroy_noChannel hrunTaken hnl _)
  case channelLive =>
    intro h hlive
    have hopc := hconstruct h
    exact hc.step_raise (decodeCommand_construct hopc) hopc (execConstruct_live hrunTaken hlive _ _)
  case pinAlias =>
    intro h hnl halias
    have hopc := hconstruct h
    exact hc.step_raise (decodeCommand_construct hopc) hopc (execConstruct_alias hrunTaken hnl halias _)
  case bufferOverrun =>
    intro h hlive hover
    have hopc := htransmit h
    rw [← harg] at hover
    exact hc.step_raise (decodeCommand_transmit hopc) hopc (execTransmit_overrun hrunTaken hlive hover)
  case construct =>
    intro h hnl hdistinct t ht
    rw [hc.step_eq (decodeCommand_construct (hconstruct h))] at ht
    exact execConstruct_fault (s := { s with port := cs }) ht hnl hdistinct
  case transmit =>
    intro h hlive hfits t ht
    rw [hc.step_eq (decodeCommand_transmit (htransmit h))] at ht
    rw [← harg] at hfits
    exact execTransmit_fault (s := { s with port := cs }) ht hlive hfits
  case setActiveOrDestroy =>
    rintro (h | h) hlive t ht
    · rw [hc.step_eq (decodeCommand_setActive (hsetActive h))] at ht
      exact execSetActive_fault (s := { s with port := cs }) ht hlive
    · rw [hc.step_eq (decodeCommand_destroy (hdestroy h))] at ht
      exact execDestroy_fault (s := { s with port := cs }) ht hlive

end Sys2Proof.Safety

/-!
PROOFS. The statements of `30_encoding.md` about the two directions of the encoding (R49 to R52, R55, R56) and about the
textual form of commands (R59, R60).
-/

namespace Sys2Proof

open Sys2Proof.Machine

/-! ### Decoding and encoding are inverse (R55, R56) -/

/-- The decoder reads from the word of a command the fields the word was made of. -/
theorem decode_encode {n : Nat} (hn : 0 < n) {i : Instr} (hi : wellFormed n i = true) : decode (encode n i) = .ok i := by
  cases i with
  | construct pins r =>
    have hdecode := decodeCommand_construct (c := ⟨commandWord n opcConstruct r, pins, []⟩) (wordOpc_commandWord n _ r)
    rwa [wordArg_commandWord hn _ hi] at hdecode
  | transmit buf b =>
    have hdecode := decodeCommand_transmit (c := ⟨commandWord n opcTransmit b, fillerPins, buf⟩) (wordOpc_commandWord n _ b)
    rwa [wordArg_commandWord hn _ hi] at hdecode
  | setActive c =>
    have hdecode := decodeCommand_setActive (c := ⟨commandWord n opcSetActive c, fillerPins, []⟩) (wordOpc_commandWord n _ c)
    rwa [wordArg_commandWord hn _ hi] at hdecode
  | destroy a =>
    have hdecode := decodeCommand_destroy (c := ⟨commandWord n opcDestroy a, fillerPins, []⟩) (wordOpc_commandWord n _ a)
    rwa [wordArg_commandWord hn _ hi] at hdecode
  | sendBit d => cases d <;> rfl
  | latch => rfl
  | clear => rfl

/-- Settles O6, by the instruction: the two fields of a command word are read back, a micro-operation code is a row of
R56's table. -/
theorem decodeOfEncode : Obligations.DecodeOfEncode := by
  unfold Obligations.DecodeOfEncode
  intro n i hn hi
  exact decode_encode hn hi

/-- A micro-operation code that decodes is the code of what it decodes to, whatever the argument width (R56). -/
theorem encode_of_decodeMicro {u : MicroCode} {i : Instr} (n : Nat) (h : decodeMicro u = .ok i) :
    encode n i = .micro u := by
  obtain ⟨d, rfl, rfl⟩ | ⟨rfl, rfl⟩ | ⟨rfl, rfl⟩ := decodeMicro_cases h <;> rfl

/-- A command that decodes is the encoding of what it decodes to, with the side operand that the instruction holds. -/
theorem encode_of_decodeCommand_operands {c : Command} {i : Instr} (h : decodeCommand c = .ok i) :
    ∃ c', encode c.word.argWidth i = .command c' ∧ c'.word = c.word ∧
      (∀ p r, i = .construct p r → c'.pins = c.pins) ∧ (∀ b n, i = .transmit b n → c'.buf = c.buf) := by
  obtain ⟨ho, rfl⟩ | ⟨ho, rfl⟩ | ⟨ho, rfl⟩ | ⟨ho, rfl⟩ := decodeCommand_cases h <;>
    exact ⟨_, rfl, commandWord_fields ho, by simp, by simp⟩

/-- Settles O7: a decoded command's word is made again by its own opcode and argument. -/
theorem encodeOfDecode : Obligations.EncodeOfDecode := by
  unfold Obligations.EncodeOfDecode
  exact ⟨fun _ _ h => encode_of_decodeCommand_operands h, fun _ _ n h => encode_of_decodeMicro n h⟩

/-! ### What decodes (R50, R55) -/

/-- Settles O8: the five ranges of the opcode field are the five answers of the decoder, and its argument is the low field
read as two's complement. -/
theorem decodeByOpcode : Obligations.DecodeByOpcode := by
  unfold Obligations.DecodeByOpcode
  intro c opc arg
  have harg : wordArg c.word = arg := Safety.wordArg_eq_ofNat c.word
  rw [← harg]
  exact ⟨fun h => decodeCommand_construct (wordOpc_of_shift h), fun h => decodeCommand_transmit (wordOpc_of_shift h),
    fun h => decodeCommand_setActive (wordOpc_of_shift h), fun h => decodeCommand_destroy (wordOpc_of_shift h),
    decodeCommand_reserved⟩

theorem wellFormed_of_decodeCommand {c : Command} {i : Instr} (h : decodeCommand c = .ok i) :
    wellFormed c.word.argWidth i = true := by
  have hfits : argFits c.word.argWidth (wordArg c.word) = true := argField_fits c.word.bits
  obtain ⟨-, rfl⟩ | ⟨-, rfl⟩ | ⟨-, rfl⟩ | ⟨-, rfl⟩ := decodeCommand_cases h <;> exact hfits

theorem wellFormed_of_decodeMicro {u : MicroCode} {i : Instr} (n : Nat) (h : decodeMicro u = .ok i) :
    wellFormed n i = true := by
  obtain ⟨d, -, rfl⟩ | ⟨-, rfl⟩ | ⟨-, rfl⟩ := decodeMicro_cases h <;> rfl

/-- Settles O9: an argument is read from a field, so it fits that field; a micro-operation has none. -/
theorem decodedIsWellFormed : Obligations.DecodedIsWellFormed := by
  unfold Obligations.DecodedIsWellFormed
  exact ⟨fun _ _ => wellFormed_of_decodeCommand, fun _ _ n => wellFormed_of_decodeMicro n⟩

/-- Settles O11, by evaluating the decoder on each word. -/
theorem specWordsDecode : Obligations.SpecWordsDecode := by
  unfold Obligations.SpecWordsDecode
  intro p b
  simp [decode, decodeCommand, decodeMicro, wordOpc, wordArg, opcField, argField, sext, opcConstruct, opcTransmit,
    opcSetActive, opcDestroy]

/-! ### The host issues commands only (R56, R60) -/

/-- The instruction is one of the four public operations (R2), no micro-operation. -/
def IsCommand (i : Instr) : Prop := i ≠ .latch ∧ i ≠ .clear ∧ ∀ d, i ≠ .sendBit d

theorem IsCommand.ne_sendBit {i : Instr} (h : IsCommand i) (d : Bool) : i ≠ .sendBit d := by
  obtain ⟨-, -, hne⟩ := h
  exact hne d

theorem isCommand_of_decodeCommand {c : Command} {i : Instr} (h : decodeCommand c = .ok i) : IsCommand i := by
  obtain ⟨-, rfl⟩ | ⟨-, rfl⟩ | ⟨-, rfl⟩ | ⟨-, rfl⟩ := decodeCommand_cases h <;> simp [IsCommand]

theorem isCommand_of_constructOperands {env : List (List Char × PinId)} {ts : List Token} {i : Instr}
    (h : constructOperands env ts = some i) : IsCommand i := by
  unfold constructOperands at h
  split at h
  · split at h
    · cases h; simp [IsCommand]
    · cases h
  · cases h

theorem isCommand_of_transmitOperands {ts : List Token} {i : Instr} (h : transmitOperands ts = some i) :
    IsCommand i := by
  unfold transmitOperands at h
  split at h
  · split at h
    · obtain ⟨v, -, rfl⟩ := Option.map_eq_some_iff.mp h; simp [IsCommand]
    · cases h
  · cases h

theorem isCommand_of_setActiveOperands {ts : List Token} {i : Instr} (h : setActiveOperands ts = some i) :
    IsCommand i := by
  unfold setActiveOperands at h
  split at h
  · obtain ⟨v, -, rfl⟩ := Option.map_eq_some_iff.mp h; simp [IsCommand]
  · cases h

theorem isCommand_of_destroyOperands {ts : List Token} {i : Instr} (h : destroyOperands ts = some i) :
    IsCommand i := by
  unfold destroyOperands at h
  split at h
  · cases h; simp [IsCommand]
  · cases h

/-- The assembler's last check lets through only what fits the argument field (log entry 29). -/
theorem checkedInstr_eq_some {n : Nat} {o : Option Instr} {i : Instr} (h : checkedInstr n o = .ok (some i)) :
    o = some i ∧ wellFormed n i = true := by
  cases o with
  | none => cases h
  | some j =>
    by_cases hj : wellFormed n j = true
    · rw [checkedInstr, if_pos hj] at h; cases h; exact ⟨rfl, hj⟩
    · rw [checkedInstr, if_neg hj] at h; cases h

theorem assembleLine_eq_some {n : Nat} {env : List (List Char × PinId)} {line : List Char} {i : Instr}
    (h : assembleLine n env line = .ok (some i)) : wellFormed n i = true ∧ IsCommand i := by
  unfold assembleLine at h
  split at h
  · cases h
  · split at h
    · obtain ⟨ho, hi⟩ := checkedInstr_eq_some h; exact ⟨hi, isCommand_of_constructOperands ho⟩
    split at h
    · obtain ⟨ho, hi⟩ := checkedInstr_eq_some h; exact ⟨hi, isCommand_of_transmitOperands ho⟩
    split at h
    · obtain ⟨ho, hi⟩ := checkedInstr_eq_some h; exact ⟨hi, isCommand_of_setActiveOperands ho⟩
    split at h
    · obtain ⟨ho, hi⟩ := checkedInstr_eq_some h; exact ⟨hi, isCommand_of_destroyOperands ho⟩
    · cases h
  · cases h

/-- Settles O10: each of the decoder's and of the assembler's answers is one of the four commands, and the assembler checks
the argument. -/
theorem hostCannotIssueMicroOps : Obligations.HostCannotIssueMicroOps := by
  unfold Obligations.HostCannotIssueMicroOps
  exact ⟨fun _ _ => isCommand_of_decodeCommand, fun _ _ _ _ => assembleLine_eq_some⟩

/-- Settles O57, by evaluating the assembler on each line. -/
theorem specLinesAssemble : Obligations.SpecLinesAssemble := by
  unfold Obligations.SpecLinesAssemble
  decide

end Sys2Proof

/-!
PROOFS. What the machine does, said once for all instructions: an instruction that completes either raises a fault and does
nothing else (R89), or has the effect of its row (R61 to R82); and the events it emits. The statements about every
instruction and every step rest on this.
-/

namespace Sys2Proof.Safety

open Sys2Proof.Machine

/-! ### What an instruction that does not fault does -/

/-- The instruction `i` runs on `s` without a fault and leaves `t`. -/
inductive Completed (s : State) : Instr → State → Prop where
  | construct {p : PinSet} {r : Int} (hnl : s.life ≠ .live) (hdistinct : ¬pinsAlias p) :
      Completed s (.construct p r) (constructed s p r)
  | transmit {buf : List Byte} {n : Int} {p : PinSet} (hlive : s.life = .live) (hfits : ¬bufferOverrun s buf n)
      (hpins : s.pins = some p) :
      Completed s (.transmit buf n) (emitState s p (shiftAndLatchEvents (sentBits s.active buf n)))
  | setActive {n : Int} (hlive : s.life = .live) :
      Completed s (.setActive n) { s with active := clampCount n s.total }
  | destroy {a : Int} {p : PinSet} (hlive : s.life = .live) (hpins : s.pins = some p) :
      Completed s (.destroy a) (destroyed s p)
  | sendBit {d : Bool} {p : PinSet} (hlive : s.life = .live) (hpins : s.pins = some p) :
      Completed s (.sendBit d) (emitState s p (sendBitEvents d))
  | latch {p : PinSet} (hlive : s.life = .live) (hpins : s.pins = some p) :
      Completed s .latch (emitState s p latchEvents)
  | clear {p : PinSet} (hlive : s.life = .live) (hpins : s.pins = some p) :
      Completed s .clear (emitState s p (clearEvents s.total))

/-- The inversion of `exec`: it completes, or it raises a fault. -/
theorem exec_next {i : Instr} {s t : State} (h : exec i s = .next t) :
    ¬stopped s ∧ (Completed s i t ∨ ∃ cause word, t = raise s cause word) := by
  cases i with
  | construct p r =>
    obtain ⟨hrun, ⟨-, ht⟩ | ⟨-, -, ht⟩ | ⟨hnl, hdistinct, rfl⟩⟩ := execConstruct_cases h
    · exact ⟨hrun, .inr ⟨_, _, ht⟩⟩
    · exact ⟨hrun, .inr ⟨_, _, ht⟩⟩
    · exact ⟨hrun, .inl (.construct hnl hdistinct)⟩
  | transmit buf n =>
    obtain ⟨hrun, ⟨-, ht⟩ | ⟨-, -, ht⟩ | ⟨hlive, hfits, p, hpins, rfl⟩⟩ := execTransmit_cases h
    · exact ⟨hrun, .inr ⟨_, _, ht⟩⟩
    · exact ⟨hrun, .inr ⟨_, _, ht⟩⟩
    · exact ⟨hrun, .inl (.transmit hlive hfits hpins)⟩
  | setActive n =>
    obtain ⟨hrun, ⟨-, ht⟩ | ⟨hlive, rfl⟩⟩ := execSetActive_cases h
    · exact ⟨hrun, .inr ⟨_, _, ht⟩⟩
    · exact ⟨hrun, .inl (.setActive hlive)⟩
  | destroy a =>
    obtain ⟨hrun, ⟨-, ht⟩ | ⟨hlive, p, hpins, rfl⟩⟩ := execDestroy_cases h
    · exact ⟨hrun, .inr ⟨_, _, ht⟩⟩
    · exact ⟨hrun, .inl (.destroy hlive hpins)⟩
  | sendBit d =>
    obtain ⟨hrun, hlive, p, hpins, rfl⟩ := runMicroOp_next h
    exact ⟨hrun, .inl (.sendBit hlive hpins)⟩
  | latch =>
    obtain ⟨hrun, hlive, p, hpins, rfl⟩ := runMicroOp_next h
    exact ⟨hrun, .inl (.latch hlive hpins)⟩
  | clear =>
    obtain ⟨hrun, hlive, p, hpins, rfl⟩ := runMicroOp_next h
    exact ⟨hrun, .inl (.clear hlive hpins)⟩

/-- An instruction that leaves FAULT as it was has completed. -/
theorem completed_of_fault_eq {i : Instr} {s t : State} (h : exec i s = .next t) (hf : t.fault = s.fault) :
    Completed s i t := by
  obtain ⟨hrun, hc | ⟨cause, word, rfl⟩⟩ := exec_next h
  · exact hc
  · exact absurd hf (raise_fault_ne hrun cause word)

/-- On a live channel DESTROY completes. -/
theorem exec_destroy_of_live {a : Int} {s t : State} (hlive : s.life = .live) (h : exec (.destroy a) s = .next t) :
    ∃ p, s.pins = some p ∧ t = destroyed s p := by
  obtain ⟨-, ⟨hnl, -⟩ | ⟨-, hdestroyed⟩⟩ := execDestroy_cases h
  · exact absurd hlive hnl
  · exact hdestroyed

/-! ### The events of an instruction -/

/-- The events that an instruction emits where it completes (R61, R63, R65, R77, R79, R81, R82). -/
def instrEvents (s : State) : Instr → List PinEvent
  | .construct _ r => setupEvents ++ clearEvents (clampCount r s.params.maxSerialBits)
  | .transmit buf n => shiftAndLatchEvents (sentBits s.active buf n)
  | .setActive _ => []
  | .destroy _ => clearEvents s.total ++ releaseEvents
  | .sendBit d => sendBitEvents d
  | .latch => latchEvents
  | .clear => clearEvents s.total

/-- From `w` to `v` exactly the events `es` were emitted on the PinSet `p`: TRACE, MODE and LEVEL follow them. -/
structure Drove (p : PinSet) (es : List PinEvent) (w v : Output) : Prop where
  trace : v.trace = w.trace ++ es.map (traceEvent p)
  mode : v.mode = es.foldl modeAfter w.mode
  level : v.level = es.foldl levelAfter w.level

theorem Drove.refl (p : PinSet) (w : Output) : Drove p [] w w := ⟨by simp, rfl, rfl⟩

theorem emitAll_drove (model : ChainModel) (p : PinSet) (w : Output) (es : List PinEvent) :
    Drove p es w (emitAll model p w es) :=
  ⟨emitAll_trace model p w es, emitAll_mode model p w es, emitAll_level model p w es⟩

/-- The redraw of the chain (R103) is no event. -/
theorem constructed_drove (s : State) (p : PinSet) (r : Int) :
    Drove p (setupEvents ++ clearEvents (clampCount r s.params.maxSerialBits)) s.out (constructed s p r).out where
  trace := constructed_trace s p r
  mode := by rw [constructed_out, emitAll_mode, List.foldl_append]; rfl
  level := by rw [constructed_out, emitAll_level, List.foldl_append]; rfl

theorem destroyed_drove (s : State) (p : PinSet) :
    Drove p (clearEvents s.total ++ releaseEvents) s.out (destroyed s p).out := by
  rw [destroyed_out]
  exact emitAll_drove _ p s.out _

/-- A completed instruction emits its events, on the pins bound after it; SET_ACTIVE, which emits none, needs no pins. -/
theorem Completed.drove {i : Instr} {s t : State} (h : Completed s i t) :
    ∃ p, (t.pins = some p ∨ t.out = s.out) ∧ Drove p (instrEvents s i) s.out t.out := by
  cases h with
  | construct => exact ⟨_, .inl rfl, constructed_drove s _ _⟩
  | transmit _ _ hpins => exact ⟨_, .inl hpins, emitAll_drove _ _ s.out _⟩
  | setActive => exact ⟨fillerPins, .inr rfl, .refl _ s.out⟩
  | destroy _ hpins => exact ⟨_, .inl hpins, destroyed_drove s _⟩
  | sendBit _ hpins => exact ⟨_, .inl hpins, emitAll_drove _ _ s.out _⟩
  | latch _ hpins => exact ⟨_, .inl hpins, emitAll_drove _ _ s.out _⟩
  | clear _ hpins => exact ⟨_, .inl hpins, emitAll_drove _ _ s.out _⟩

/-- Only on a live channel, or by binding one, does an instruction complete. -/
theorem Completed.live {i : Instr} {s t : State} (h : Completed s i t) : s.life = .live ∨ t.life = .live := by
  cases h with
  | construct => exact .inr rfl
  | transmit hlive | setActive hlive | destroy hlive | sendBit hlive | latch hlive | clear hlive => exact .inl hlive

/-! ### What a step does -/

/-- A step of `s` takes the instruction `i` off the sequencer, or off the port, and leaves `s'` (R48, R56). -/
inductive Taken (s : State) : Instr → State → Prop where
  | micro {u : MicroCode} {us : List MicroCode} {i : Instr} (hu : s.useq = u :: us) (hd : decodeMicro u = .ok i) :
      Taken s i { s with useq := us }
  | command {c : Command} {cs : List Command} {i : Instr} (hu : s.useq = []) (hp : s.port = c :: cs)
      (hd : decodeCommand c = .ok i) : Taken s i { s with port := cs }

/-- Taking an instruction off changes nothing else. -/
theorem Taken.frame {s s' : State} {i : Instr} (h : Taken s i s') :
    ∃ us cs, s' = { s with useq := us, port := cs } := by
  cases h with
  | micro => exact ⟨_, _, rfl⟩
  | command => exact ⟨_, _, rfl⟩

/-- The inversion of `step`: it finds nothing presented, or it takes a command off the port and raises a fault, or the
instruction it takes off completes. -/
theorem step_next {s t : State} (h : step s = .next t) :
    t = s ∨ (∃ cs cause word, t = raise { s with port := cs } cause word) ∨
      ∃ i s', Taken s i s' ∧ Completed s' i t := by
  obtain ⟨-, ⟨u, us, i, hu, hd, h⟩ | ⟨c, cs, i, hu, hp, -, hd, h⟩ | ⟨c, cs, e, -, -, -, -, rfl⟩ | ⟨-, -, rfl⟩⟩ :=
    step_cases h
  · exact .inr (.inr ⟨i, _, .micro hu hd, completed_of_fault_eq h (exec_fault_of_decodeMicro hd h)⟩)
  · obtain ⟨-, hc | ⟨cause, word, rfl⟩⟩ := exec_next h
    · exact .inr (.inr ⟨i, _, .command hu hp hd, hc⟩)
    · exact .inr (.inl ⟨cs, cause, word, rfl⟩)
  · exact .inr (.inl ⟨cs, _, _, rfl⟩)
  · exact .inl rfl

/-- A step leaves the output side alone, or an instruction has completed and emitted its events on the pins bound after it. -/
theorem step_drove {s t : State} (h : step s = .next t) :
    t.out = s.out ∨ ∃ i s' p, Taken s i s' ∧ Completed s' i t ∧ t.pins = some p ∧
      Drove p (instrEvents s' i) s.out t.out := by
  obtain rfl | ⟨cs, cause, word, rfl⟩ | ⟨i, s', htaken, hc⟩ := step_next h
  · exact .inl rfl
  · exact .inl rfl
  · have hout : s'.out = s.out := by obtain ⟨us, cs, rfl⟩ := htaken.frame; rfl
    obtain ⟨p, hpins | ht, hdrove⟩ := hc.drove
    · exact .inr ⟨i, s', p, htaken, hc, hpins, hout ▸ hdrove⟩
    · exact .inl (ht.trans hout)

end Sys2Proof.Safety

/-!
PROOFS. Which instructions write which registers (R21 to R25), the power-on state (R108), and the invariants of the block that
every step keeps (R24 to R28, R97, R114).
-/

namespace Sys2Proof.Safety

open Sys2Proof.Machine

/-! ### Which instructions write which registers (R21 to R25) -/

theorem Completed.keeps {i : Instr} {s t : State} (h : Completed s i t) :
    t.params = s.params ∧ t.port = s.port ∧ t.useq = s.useq ∧ t.stream = s.stream := by
  cases h <;> exact ⟨rfl, rfl, rfl, rfl⟩

theorem Completed.total_pins_draws {i : Instr} {s t : State} (h : Completed s i t)
    (hi : ∀ p r, i ≠ .construct p r) : t.total = s.total ∧ t.pins = s.pins ∧ t.draws = s.draws := by
  cases h with
  | construct => exact absurd rfl (hi _ _)
  | transmit | setActive | destroy | sendBit | latch | clear => exact ⟨rfl, rfl, rfl⟩

theorem Completed.life_eq {i : Instr} {s t : State} (h : Completed s i t) (hi : ∀ p r, i ≠ .construct p r)
    (hi' : ∀ a, i ≠ .destroy a) : t.life = s.life := by
  cases h with
  | construct => exact absurd rfl (hi _ _)
  | destroy => exact absurd rfl (hi' _)
  | transmit | setActive | sendBit | latch | clear => rfl

theorem Completed.active_eq {i : Instr} {s t : State} (h : Completed s i t) (hi : ∀ p r, i ≠ .construct p r)
    (hi' : ∀ n, i ≠ .setActive n) : t.active = s.active := by
  cases h with
  | construct => exact absurd rfl (hi _ _)
  | setActive => exact absurd rfl (hi' _)
  | transmit | destroy | sendBit | latch | clear => rfl

/-- Settles O45: a fault writes FAULT only; what completes writes the registers of its row. -/
theorem registerWriters : Obligations.RegisterWriters := by
  unfold Obligations.RegisterWriters
  intro i s t h
  obtain ⟨-, hc | ⟨cause, word, rfl⟩⟩ := exec_next h
  · obtain ⟨hparams, hport, huseq, hstream⟩ := hc.keeps
    exact ⟨hparams, hport, huseq, hstream, hc.total_pins_draws, hc.life_eq, hc.active_eq⟩
  · exact ⟨rfl, rfl, rfl, rfl, fun _ => ⟨rfl, rfl, rfl⟩, fun _ _ => rfl, fun _ _ => rfl⟩

/-! ### The parts of the invariant -/

/-- A known level of the data line stays known: no event makes a level UNKNOWN (R27). -/
theorem levelAfter_sdata_known {level : PerRole LevelReg} (h : level.sdata ≠ .unknown) (e : PinEvent) :
    (levelAfter level e).sdata ≠ .unknown := by
  obtain ⟨role, act⟩ := e
  cases act with
  | setMode => exact h
  | write l =>
    cases role with
    | sclk | lclk => exact h
    | sdata => cases l <;> simp [levelAfter, perRoleSet, levelReg]

theorem emitAll_sdata_known (model : ChainModel) (p : PinSet) {w : Output} (h : w.level.sdata ≠ .unknown)
    (es : List PinEvent) : (emitAll model p w es).level.sdata ≠ .unknown := by
  induction es generalizing w with
  | nil => exact h
  | cons e es ih => exact ih (levelAfter_sdata_known h e)

/-- The invariant looks at the registers, the output side and the form of FAULT. -/
theorem Inv.of_registers {s t : State} (h : Inv s) (hparams : t.params = s.params) (hlife : t.life = s.life)
    (htotal : t.total = s.total) (hpins : t.pins = s.pins) (hout : t.out = s.out) (hactive : t.active ≤ t.total)
    (hcode : t.fault.code.toNat ≤ 5) (hinfo : t.fault.info.isSome = decide (t.fault.code ≠ 0)) : Inv t where
  activeLeTotal := hactive
  totalLeMax := by rw [htotal, hparams]; exact h.totalLeMax
  live hl := by
    obtain ⟨hbound, hmode, hsclk, hlclk, hsdata⟩ := h.live (hlife ▸ hl)
    constructor <;> simpa only [hpins, hout]
  released hl := by
    obtain ⟨hbound, hmode⟩ := h.released (hlife ▸ hl)
    constructor <;> simpa only [hpins, hout]
  unbound hl := by
    obtain ⟨hzero, hnone, hmode, hlevel, htrace⟩ := h.unbound (hlife ▸ hl)
    constructor <;> simpa only [htotal, hpins, hout]
  faultCode := hcode
  faultInfo := hinfo
  sStages := by rw [hout, hparams, htotal]; exact h.sStages
  qStages := by rw [hout, hparams, htotal]; exact h.qStages

theorem Inv.taken {s : State} (h : Inv s) (us : List MicroCode) (cs : List Command) :
    Inv { s with useq := us, port := cs } :=
  h.of_registers rfl rfl rfl rfl rfl h.activeLeTotal h.faultCode h.faultInfo

theorem Inv.raise {s : State} (h : Inv s) (cause : FaultCause) (word : CommandWord) : Inv (raise s cause word) := by
  refine h.of_registers rfl rfl rfl rfl rfl h.activeLeTotal ?_ ?_
  · cases cause <;> exact Nat.le_of_ble_eq_true rfl
  · cases cause <;> rfl

theorem Inv.setActive {s : State} (h : Inv s) (n : Int) : Inv { s with active := clampCount n s.total } :=
  h.of_registers rfl rfl rfl rfl rfl (clampCount_le n s.total) h.faultCode h.faultInfo

theorem Inv.emitted_lengths {s : State} (h : Inv s) (p : PinSet) (es : List PinEvent) :
    (emitState s p es).out.chain.s.length = chainStages s.params.chainLength s.total ∧
      (emitState s p es).out.chain.q.length = chainStages s.params.chainLength s.total := by
  have hlengths := emitAll_lengths s.params.chainModel p s.out es (h.qStages.trans h.sStages.symm)
  rwa [h.sStages] at hlengths

/-- On a live channel events that end with both pulse lines LOW and all pins outputs keep the invariant. -/
theorem Inv.emitState {s : State} (h : Inv s) (hlive : s.life = .live) (p : PinSet) {es : List PinEvent}
    (hready : PulseReady (emitAll s.params.chainModel p s.out es)) : Inv (emitState s p es) where
  activeLeTotal := h.activeLeTotal
  totalLeMax := h.totalLeMax
  live _ := ⟨(h.live hlive).bound, hready.mode, hready.sclk, hready.lclk,
    emitAll_sdata_known _ p (h.live hlive).sdataKnown es⟩
  released hl := by rw [emitState_life, hlive] at hl; cases hl
  unbound hl := by rw [emitState_life, hlive] at hl; cases hl
  faultCode := h.faultCode
  faultInfo := h.faultInfo
  sStages := (h.emitted_lengths p es).1
  qStages := (h.emitted_lengths p es).2

theorem Inv.shiftAndLatch {s : State} (h : Inv s) (hlive : s.life = .live) (p : PinSet) (bits : List Bool) :
    Inv (Machine.emitState s p (shiftAndLatchEvents bits)) :=
  h.emitState hlive p (shiftAndLatch_ready _ p (h.live hlive).ready bits)

/-- What CONSTRUCT leaves meets the invariant, whatever the pins and the chain were before (R61, R114). -/
theorem Inv.constructed {s : State} (h : Inv s) {p : PinSet} (hdistinct : ¬pinsAlias p) (r : Int) :
    Inv (constructed s p r) where
  activeLeTotal := Nat.le_refl _
  totalLeMax := clampCount_le r s.params.maxSerialBits
  live _ := by
    constructor
    · simpa using hdistinct
    · exact constructed_mode s p r
    all_goals rw [constructed_level]
    nofun
  released := nofun
  unbound := nofun
  faultCode := h.faultCode
  faultInfo := h.faultInfo
  sStages := by
    rw [constructed_chain, latchEdge_s, shiftAll_s_length, drawn_s_length, constructed_params, constructed_total]
  qStages := by
    rw [constructed_chain, latchEdge_q, shiftAll_s_length, drawn_s_length, constructed_params, constructed_total]

/-- What DESTROY leaves meets the invariant (R63, R64). -/
theorem Inv.destroyed {s : State} (h : Inv s) (hlive : s.life = .live) (p : PinSet) : Inv (destroyed s p) where
  activeLeTotal := h.activeLeTotal
  totalLeMax := h.totalLeMax
  live := nofun
  released _ := ⟨(h.live hlive).bound, destroyed_mode s p⟩
  unbound := nofun
  faultCode := h.faultCode
  faultInfo := h.faultInfo
  sStages := by rw [destroyed_out]; exact (h.emitted_lengths p _).1
  qStages := by rw [destroyed_out]; exact (h.emitted_lengths p _).2

theorem Inv.completed {i : Instr} {s t : State} (h : Inv s) (hc : Completed s i t) : Inv t := by
  cases hc with
  | construct hnl hdistinct => exact h.constructed hdistinct _
  | transmit hlive => exact h.shiftAndLatch hlive _ _
  | setActive hlive => exact h.setActive _
  | destroy hlive => exact h.destroyed hlive _
  | sendBit hlive => exact h.emitState hlive _ (sendBit_ready _ _ (h.live hlive).ready _)
  | latch hlive => exact h.shiftAndLatch hlive _ []
  | clear hlive => exact h.shiftAndLatch hlive _ _

/-- Settles O3: taking an instruction off, raising a fault and completing each keep the invariant. -/
theorem stepKeepsInvariant : Obligations.StepKeepsInvariant := by
  unfold Obligations.StepKeepsInvariant
  intro s t h hstep
  obtain rfl | ⟨cs, cause, word, rfl⟩ | ⟨i, s', htaken, hc⟩ := step_next hstep
  · exact h
  · exact (h.taken s.useq cs).raise cause word
  · obtain ⟨us, cs, rfl⟩ := htaken.frame
    exact (h.taken us cs).completed hc

/-! ### The command boundary -/

/-- A latch edge after any shift edges leaves none uncounted, if none was before: under FREEZE it sets J to 0, and under SHIFT
J does not move (R97, R100, log entry 22). -/
theorem latchEdge_shiftAll_j (model : ChainModel) (bits : List Bool) {c : Chain} (h : c.j = 0) :
    ((c.shiftAll model bits).latchEdge model).j = 0 := by
  cases model with
  | shift => exact (shiftAll_j_shift bits c).trans h
  | freeze => rfl

theorem shiftAndLatch_chain_j (model : ChainModel) (p : PinSet) {w : Output} (hready : PulseReady w) (h : w.chain.j = 0)
    (bits : List Bool) : (emitAll model p w (shiftAndLatchEvents bits)).chain.j = 0 := by
  rw [shiftAndLatch_chain model p hready]
  exact latchEdge_shiftAll_j model bits h

theorem constructed_chain_j (s : State) (p : PinSet) (r : Int) : (constructed s p r).out.chain.j = 0 := by
  rw [constructed_chain]
  exact latchEdge_shiftAll_j _ _ (drawn_j ..)

/-- Of all instructions only SEND_BIT leaves a shift edge without its latch edge. -/
theorem Completed.chain_j {i : Instr} {s t : State} (hc : Completed s i t) (hi : IsCommand i) (hinv : Inv s)
    (h : s.out.chain.j = 0) : t.out.chain.j = 0 := by
  cases hc with
  | construct => exact constructed_chain_j s _ _
  | transmit hlive => exact shiftAndLatch_chain_j _ _ (hinv.live hlive).ready h _
  | setActive => exact h
  | destroy hlive =>
    rw [destroyed_chain]
    exact shiftAndLatch_chain_j _ _ (hinv.live hlive).ready h _
  | sendBit => exact absurd rfl (hi.ne_sendBit _)
  | latch hlive => exact shiftAndLatch_chain_j _ _ (hinv.live hlive).ready h []
  | clear hlive => exact shiftAndLatch_chain_j _ _ (hinv.live hlive).ready h _

/-- With nothing in the sequencer a step takes a command off the port (R48). -/
theorem Taken.command_of_useq_nil {s s' : State} {i : Instr} (htaken : Taken s i s') (hu : s.useq = []) :
    IsCommand i ∧ ∃ cs, s' = { s with port := cs } := by
  cases htaken with
  | micro hu' => rw [hu] at hu'; cases hu'
  | command _ _ hd => exact ⟨isCommand_of_decodeCommand hd, _, rfl⟩

/-- With nothing in the sequencer a step leaves nothing there and, from J = 0, no shift edge unlatched. -/
theorem step_useq_and_count {s t : State} (hinv : Inv s) (hu : s.useq = []) (hj : s.out.chain.j = 0)
    (hstep : step s = .next t) : t.useq = [] ∧ t.out.chain.j = 0 := by
  obtain rfl | ⟨cs, cause, word, rfl⟩ | ⟨i, s', htaken, hc⟩ := step_next hstep
  · exact ⟨hu, hj⟩
  · exact ⟨hu, hj⟩
  · obtain ⟨hi, cs, rfl⟩ := htaken.command_of_useq_nil hu
    obtain ⟨-, -, huseq, -⟩ := hc.keeps
    exact ⟨huseq.trans hu, hc.chain_j hi (hinv.taken s.useq cs) hj⟩

/-- Settles O4: the invariant by O3; from the port a step runs a command, which sends no bit without a latch pulse. -/
theorem stepKeepsCommandBoundary : Obligations.StepKeepsCommandBoundary := by
  unfold Obligations.StepKeepsCommandBoundary
  intro s t h hstep
  obtain ⟨hu, hj⟩ := step_useq_and_count h.inv h.sequencer h.count hstep
  exact ⟨stepKeepsInvariant s t h.inv hstep, hu, hj⟩

/-- Settles O5: the invariant bounds both counts by MAX_SERIAL_BITS, which has bitlen(MAX_SERIAL_BITS) bits. -/
theorem countsFitTheirRegisters : Obligations.CountsFitTheirRegisters := by
  unfold Obligations.CountsFitTheirRegisters
  intro s h
  have htotal : s.total < 2 ^ bitlen s.params.maxSerialBits :=
    Nat.lt_of_le_of_lt h.totalLeMax (lt_two_pow_bitlen s.params.maxSerialBits)
  exact ⟨htotal, Nat.lt_of_le_of_lt h.activeLeTotal htotal⟩

/-! ### Power-on (R108) -/

/-- Settles O1: each field is the one `State.powerOn` names. -/
theorem powerOnState : Obligations.PowerOnState := by
  unfold Obligations.PowerOnState
  intro p stream
  refine ⟨rfl, rfl, rfl, rfl, rfl, ?_, ?_, rfl, rfl, rfl, ⟨_, rfl⟩, ⟨_, rfl⟩, rfl, rfl⟩ <;> intro r <;> cases r <;> rfl

theorem powerOn_inv (p : Params) (stream : Nat) : Inv (State.powerOn p stream) where
  activeLeTotal := Nat.le_refl 0
  totalLeMax := Nat.zero_le _
  live := nofun
  released := nofun
  unbound _ := ⟨rfl, rfl, rfl, rfl, rfl⟩
  faultCode := Nat.zero_le 5
  faultInfo := rfl
  sStages := drawn_s_length ..
  qStages := drawn_q_length ..

/-- Settles O2: nothing is bound and nothing emitted, the chain is drawn with N_CHAIN stages and J = 0. -/
theorem powerOnMeetsInvariants : Obligations.PowerOnMeetsInvariants := by
  unfold Obligations.PowerOnMeetsInvariants
  intro p stream
  exact ⟨powerOn_inv p stream, rfl, rfl⟩

end Sys2Proof.Safety

/-!
PROOFS. The statements about the step itself (R49, R56, log entries 4, 6 and 7), about a faulted run (R86) and about what
records a fault (R87).
-/

namespace Sys2Proof.Safety

open Sys2Proof.Machine

/-! ### The step (R48, R49, R56) -/

/-- Settles O15: the fetch takes what stands first in the sequencer, else at the port. -/
theorem stepRunsTheDecodedInstruction : Obligations.StepRunsTheDecodedInstruction := by
  unfold Obligations.StepRunsTheDecodedInstruction
  intro s hrun
  refine ⟨fun u us i hu hd => ?_, fun c cs i hu hp hw hd => ?_, fun c cs hu hp hw => ?_, fun hu hp => ?_⟩
  · rw [step, fetch_micro hrun hu hd]
  · rw [step, fetch_command hrun hu hp hw hd]
  · rw [step, fetch_width hrun hu hp hw]
  · rw [step, fetch_idle hrun hu hp]

theorem decodeMicro_reserved : ∀ u : MicroCode, 4 ≤ u.toNat → decodeMicro u = .error (.reservedMicroOp u) := by decide

/-- Settles O17: the fetch takes no code that the decoder rejects. -/
theorem reservedMicroOpIsRefused : Obligations.ReservedMicroOpIsRefused := by
  unfold Obligations.ReservedMicroOpIsRefused
  intro s u us hrun hu hcode
  rw [step, fetch_reserved hrun hu (decodeMicro_reserved u hcode)]

/-- Settles O43: a micro-operation looks for a live channel before it does anything. -/
theorem microOpNeedsALiveChannel : Obligations.MicroOpNeedsALiveChannel := by
  unfold Obligations.MicroOpNeedsALiveChannel
  intro s d hrun hnl
  have hrefused (es : List PinEvent) : runMicroOp s es = .refused .microOpOutsideChannel := by
    rw [runMicroOp, whenRunning_running hrun, if_neg hnl]
  exact ⟨hrefused _, hrefused _, hrefused _⟩

/-! ### Faulted runs and the table of faults (R86, R87) -/

/-- Settles O22: `completed` asks for no fault, and the first of any number of steps is the fault. -/
theorem faultedRunNeverCompletes : Obligations.FaultedRunNeverCompletes := by
  unfold Obligations.FaultedRunNeverCompletes
  intro s hfailed
  refine ⟨fun ⟨_, _, hrun⟩ => hrun hfailed, fun k => ?_⟩
  rw [steps_succ, step_stopped hfailed]

/-- Settles O19, by the cases of each command; what is no command, or completes, leaves FAULT alone. -/
theorem faultOnlyByTable : Obligations.FaultOnlyByTable := by
  unfold Obligations.FaultOnlyByTable
  intro i s t h hf
  cases i with
  | construct p r =>
    obtain ⟨-, ⟨hlive, rfl⟩ | ⟨hnl, halias, rfl⟩ | ⟨-, -, rfl⟩⟩ := execConstruct_cases h
    · exact .inr (.inl ⟨hlive, rfl, p, r, rfl⟩)
    · exact .inr (.inr (.inl ⟨hnl, rfl, p, r, rfl, halias⟩))
    · exact absurd (constructed_fault s p r) hf
  | transmit buf n =>
    obtain ⟨-, ⟨hnl, rfl⟩ | ⟨hlive, hover, rfl⟩ | ⟨-, -, p, -, rfl⟩⟩ := execTransmit_cases h
    · exact .inl ⟨hnl, rfl, .inl ⟨buf, n, rfl⟩⟩
    · exact .inr (.inr (.inr ⟨hlive, rfl, buf, n, rfl, hover⟩))
    · exact absurd (emitState_fault s p _) hf
  | setActive n =>
    obtain ⟨-, ⟨hnl, rfl⟩ | ⟨-, rfl⟩⟩ := execSetActive_cases h
    · exact .inl ⟨hnl, rfl, .inr (.inl ⟨n, rfl⟩)⟩
    · exact absurd rfl hf
  | destroy a =>
    obtain ⟨-, ⟨hnl, rfl⟩ | ⟨-, p, -, rfl⟩⟩ := execDestroy_cases h
    · exact .inl ⟨hnl, rfl, .inr (.inr ⟨a, rfl⟩)⟩
    · exact absurd rfl hf
  | sendBit | latch | clear => exact absurd (runMicroOp_fault h) hf

end Sys2Proof.Safety

/-!
PROOFS. The statements about the attached chain (R60, R78, R98 to R106, R109, R110): each meaning is a run of shift edges, then
a latch edge, and the closed forms of `Laws/Chain.lean` say what those leave in each stage.
-/

namespace Sys2Proof.Safety

open Sys2Proof.Machine

/-! ### One edge (R98 to R102) -/

/-- A shift edge, stage by stage, in either model (R99, R102). -/
theorem shiftEdge_getElem? (model : ChainModel) (d : Bool) (c : Chain) {k : Nat} (hk : k < c.s.length) :
    (c.shiftEdge model d).s[k]? =
      if k = 0 then some d
      else
        match model with
        | .shift => c.s[k - 1]?
        | .freeze => if k ≤ c.j then c.s[k - 1]? else c.s[k]? := by
  cases model with
  | freeze => exact shiftEdge_freeze_getElem? d c hk
  | shift =>
    refine (shiftAll_shift_getElem? [d] c hk).trans ?_
    cases k with
    | zero => rfl
    | succ m => simp

theorem shiftEdge_j (model : ChainModel) (d : Bool) (c : Chain) :
    (c.shiftEdge model d).j =
      match model with
      | .shift => c.j
      | .freeze => c.j + 1 := by
  cases model <;> rfl

/-- Settles O37: on a ready channel SEND_BIT is one shift edge of the chain. -/
theorem sendBitShiftsTheChain : Obligations.SendBitShiftsTheChain := by
  unfold Obligations.SendBitShiftsTheChain
  intro s t d hlive h
  obtain ⟨-, -, p, -, rfl⟩ := runMicroOp_next h
  rw [emitState_out, sendBit_chain _ p hlive.ready]
  exact ⟨shiftEdge_q .., shiftEdge_s_length .., shiftEdge_j .., fun k hk => shiftEdge_getElem? _ d _ hk⟩

theorem latchEdge_eq (model : ChainModel) (c : Chain) :
    c.latchEdge model =
      { s := c.s
        q := c.s
        j := match model with
          | .shift => c.j
          | .freeze => 0 } := by
  cases model <;> rfl

/-- Settles O39: on a ready channel LATCH is one latch edge of the chain. -/
theorem latchCopiesTheChain : Obligations.LatchCopiesTheChain := by
  unfold Obligations.LatchCopiesTheChain
  intro s t hlive h
  obtain ⟨-, -, p, -, rfl⟩ := runMicroOp_next h
  rw [emitState_out, latch_chain _ p hlive.ready]
  exact latchEdge_eq ..

/-! ### CLEAR, DESTROY and CONSTRUCT (R77, R103, R105) -/

/-- The chain after CLEAR's events: Q equals S, and S is what the zeros shifted in make of it. -/
theorem clear_chain (model : ChainModel) (p : PinSet) {w : Output} (hready : PulseReady w) (n : Nat) :
    (emitAll model p w (clearEvents n)).chain.q = (emitAll model p w (clearEvents n)).chain.s ∧
      (emitAll model p w (clearEvents n)).chain.s = (w.chain.shiftAll model (List.replicate n false)).s := by
  rw [clearEvents, shiftAndLatch_chain model p hready, latchEdge_q, latchEdge_s]
  exact ⟨rfl, rfl⟩

/-- Settles O41: CLEAR shifts TOTAL zeros in and latches. -/
theorem clearZeroesTheChain : Obligations.ClearZeroesTheChain := by
  unfold Obligations.ClearZeroesTheChain
  intro s t hlive h
  obtain ⟨-, -, p, -, rfl⟩ := runMicroOp_next h
  obtain ⟨hq, hs⟩ := clear_chain s.params.chainModel p hlive.ready s.total
  rw [emitState_out, hq, hs]
  exact ⟨rfl, shiftAll_s_length .., shiftAll_zeros _ _, fun k hk => shiftAll_zeros_getElem? _ _ _ hk⟩

/-- Settles O27: DESTROY clears as CLEAR does, and the release events are no edges. -/
theorem destroyClearsTheChain : Obligations.DestroyClearsTheChain := by
  unfold Obligations.DestroyClearsTheChain
  intro s t a hinv hlive h
  obtain ⟨p, -, rfl⟩ := exec_destroy_of_live hlive h
  obtain ⟨hq, hs⟩ := clear_chain s.params.chainModel p (hinv.live hlive).ready s.total
  rw [destroyed_chain, hq, hs]
  exact ⟨rfl, shiftAll_s_length .., shiftAll_zeros _ _, fun k hk => shiftAll_zeros_getElem? _ _ _ hk⟩

theorem drawn_s_getElem? (stream start n : Nat) {k : Nat} (hk : k < n) :
    (Chain.drawn stream start n).s[k]? = some (Config.freeBit stream (start + k)) := by
  simp [Chain.drawn, drawBits, hk]

theorem constructed_draws (s : State) (p : PinSet) (r : Int) :
    (constructed s p r).draws =
      s.draws + 2 * chainStages s.params.chainLength (clampCount r s.params.maxSerialBits) := rfl

/-- Zeros shifted into a freshly drawn chain, stage by stage: above them stand free bits of the draw (R103, R104). -/
theorem shiftAll_zeros_drawn_getElem? (model : ChainModel) (stream start stages n : Nat) {k : Nat} (hk : k < stages) :
    ((Chain.drawn stream start stages).shiftAll model (List.replicate n false)).s[k]? =
      some (if k < n then false
        else
          match model with
          | .shift => Config.freeBit stream (start + (k - n))
          | .freeze => Config.freeBit stream (start + k)) := by
  rw [shiftAll_zeros_getElem? model _ n (by rwa [drawn_s_length]) fun _ => rfl, apply_ite some]
  cases model with
  | shift => rw [drawn_s_getElem? stream start stages (by omega)]
  | freeze => rw [drawn_s_getElem? stream start stages hk]

/-- Settles O24: after the redraw CONSTRUCT shifts TOTAL zeros in and latches; the draw is numbered from `draws` on. -/
theorem constructClearsTheChain : Obligations.ConstructClearsTheChain := by
  unfold Obligations.ConstructClearsTheChain
  intro s t p r h hf
  cases completed_of_fault_eq h hf
  have hzeros := shiftAll_zeros s.params.chainModel
    (Chain.drawn s.stream s.draws (chainStages s.params.chainLength (clampCount r s.params.maxSerialBits)))
    (n := clampCount r s.params.maxSerialBits)
  rw [drawn_s_length] at hzeros
  refine ⟨?_, constructed_chain_j s p r, ?_, ?_, s.draws, Nat.le_refl _, (constructed_draws s p r).ge, fun k hk => ?_⟩ <;>
    rw [constructed_chain, latchEdge_s]
  · rw [latchEdge_q]
  · rw [shiftAll_s_length, drawn_s_length]; rfl
  · exact hzeros
  · exact shiftAll_zeros_drawn_getElem? _ _ _ _ _ hk

/-! ### TRANSMIT (R104) -/

/-- A run of shift edges, stage by stage, in either model, under FREEZE from J = 0 (R104). -/
theorem shiftAll_getElem? (model : ChainModel) (bits : List Bool) {c : Chain} (hj : c.j = 0) {k : Nat}
    (hk : k < c.s.length) :
    (c.shiftAll model bits).s[k]? =
      if k < bits.length then bits[bits.length - 1 - k]?
      else
        match model with
        | .shift => c.s[k - bits.length]?
        | .freeze => c.s[k]? := by
  cases model with
  | shift => exact shiftAll_shift_getElem? bits c hk
  | freeze =>
    rw [shiftAll_freeze_getElem? bits c hk, hj]
    by_cases hsent : k < bits.length
    · rw [if_pos hsent, if_pos hsent]
    · rw [if_neg hsent, if_neg (by omega), if_neg hsent]

/-- The bits TRANSMIT sends, one by one: below the data count a bit of the buffer's stream, then zeros (R68, R69). -/
theorem sentBits_getElem? (s : State) (buf : List Byte) (b : Int) {k : Nat} (hk : k < s.active) :
    (sentBits s.active buf b)[k]? = some (if k < dataOf s buf b then bufBit buf k else false) := by
  rw [sentBits_eq_bufBits]
  by_cases hdata : k < dataOf s buf b
  · rw [List.getElem?_append_left (by simpa using hdata), if_pos hdata]
    simp [hdata]
  · have hpad : k - dataOf s buf b < s.active - dataOf s buf b := by omega
    rw [List.getElem?_append_right (by simpa using hdata), if_neg hdata]
    simp [hpad]

/-- Settles O33: TRANSMIT shifts the ACTIVE bits it sends in and latches. -/
theorem transmitMovesTheChain : Obligations.TransmitMovesTheChain := by
  unfold Obligations.TransmitMovesTheChain
  intro s t buf b hlive _ hj h hf n sent
  cases completed_of_fault_eq h hf with | transmit _ _ _ => ?_
  refine ⟨?_, shiftAndLatch_chain_j _ _ hlive.ready hj _, ?_, fun k hk => ?_⟩ <;>
    rw [emitState_out, shiftAndLatch_chain _ _ hlive.ready, latchEdge_s]
  · rw [latchEdge_q]
  · exact shiftAll_s_length ..
  · have hstage := shiftAll_getElem? s.params.chainModel (sentBits s.active buf b) hj hk
    rw [sentBits_length] at hstage
    refine hstage.trans ?_
    by_cases hsent : k < s.active
    · rw [if_pos hsent, if_pos hsent]
      exact sentBits_getElem? s buf b (by omega)
    · exact (if_neg hsent).trans (if_neg hsent).symm

/-! ### Clearing twice, and clearing by TRANSMIT (R60, R78) -/

theorem emitted_trans {s t u : State} {p : PinSet} {cs ds : List EventCode} (hst : emitted s t p cs)
    (htu : emitted t u p ds) : emitted s u p (cs ++ ds) := by
  obtain ⟨es, htrace, hcodes, hpins⟩ := hst
  obtain ⟨fs, htrace', hcodes', hpins'⟩ := htu
  refine ⟨es ++ fs, ?_, ?_, ?_⟩
  · rw [htrace', htrace, List.append_assoc]
  · rw [← hcodes, ← hcodes']; simp [codes]
  · exact List.forall_mem_append.mpr ⟨hpins, hpins'⟩

/-- Settles O42: the first CLEAR leaves all stages 0 and the lines ready, so the second leaves the same stages. -/
theorem clearIsIdempotent : Obligations.ClearIsIdempotent := by
  unfold Obligations.ClearIsIdempotent
  intro s p hrun hl hpins hlive hstages
  have hready' : PulseReady (emitState s p (clearEvents s.total)).out := shiftAndLatch_ready _ p hlive.ready _
  obtain ⟨hs, hq⟩ := clear_chain_zero s.params.chainModel p hlive.ready hstages
  have hlength : (emitState s p (clearEvents s.total)).out.chain.s.length = s.out.chain.s.length := by simp [hs]
  obtain ⟨hs', hq'⟩ := clear_chain_zero s.params.chainModel p hready' (hlength.trans_le hstages)
  rw [hlength] at hs' hq'
  exact ⟨_, _, exec_clear_live hrun hl hpins, exec_clear_live (s := emitState s p _) hrun hl hpins, hs'.trans hs.symm,
    hq'.trans hq.symm, _, emitted_clear s p, emitted_trans (emitted_clear s p) (emitted_clear _ p)⟩

theorem sentBits_empty (active : Nat) : sentBits active [] 0 = List.replicate active false := by
  rw [sentBits_eq]
  simp [dataCount]

/-- An empty buffer is not too short for a count of 0 (R67). -/
theorem not_bufferOverrun_empty (s : State) : ¬bufferOverrun s [] 0 := by
  rintro ⟨-, hover⟩
  rw [effectiveBits, clampCount_eq_zero (Int.le_refl 0)] at hover
  exact absurd hover (Nat.lt_irrefl 0)

/-- Settles O34: with ACTIVE = TOTAL the empty TRANSMIT emits the very events of CLEAR. -/
theorem hostCanClearByTransmit : Obligations.HostCanClearByTransmit := by
  unfold Obligations.HostCanClearByTransmit
  intro s p hrun hlive hpins
  have hactive : clampCount s.total s.total = s.total := clampCount_eq_of_le (Int.le_refl _)
  have hset : exec (.setActive s.total) s = .next { s with active := s.total } :=
    (execSetActive_ok hrun hlive s.total).trans (by rw [hactive])
  have htransmit : exec (.transmit [] 0) { s with active := s.total } =
      .next (emitState { s with active := s.total } p (clearEvents s.total)) := by
    rw [clearEvents, ← sentBits_empty]
    exact execTransmit_ok (s := { s with active := s.total }) hrun hlive (not_bufferOverrun_empty _) hpins
  exact ⟨_, _, _, hset, htransmit, exec_clear_live hrun hlive hpins, rfl, emitted_clear s p⟩

end Sys2Proof.Safety

/-!
PROOFS. The statements about the trace and the levels that follow it: the events of each instruction, counted and in order
(R62, R64, R70, R119), the levels they leave (R73, R110), and what holds of the events of any step (R16, R25, R29, R113, R115).
-/

namespace Sys2Proof.Safety

open Sys2Proof.Machine

/-! ### How many events (R70, R119) -/

theorem sendBitsEvents_length (bits : List Bool) : (sendBitsEvents bits).length = 3 * bits.length := by
  induction bits with
  | nil => rfl
  | cons d ds ih => rw [sendBits_cons, List.length_append, ih, List.length_cons, sendBitEvents]; simp; omega

theorem shiftAndLatchEvents_length (bits : List Bool) :
    (shiftAndLatchEvents bits).length = 3 * bits.length + 2 := by
  rw [shiftAndLatchEvents, List.length_append, sendBitsEvents_length]; rfl

theorem clearEvents_length (n : Nat) : (clearEvents n).length = 3 * n + 2 := by
  rw [clearEvents, shiftAndLatchEvents_length, List.length_replicate]

/-- The number of events of each instruction that completes (R119). -/
theorem Completed.events_length {i : Instr} {s t : State} :
    Completed s i t →
      (instrEvents s i).length =
        match i with
        | .construct _ _ => 6 + 3 * t.total + 2
        | .transmit _ _ => 3 * s.active + 2
        | .setActive _ => 0
        | .destroy _ => 3 * s.total + 2 + 3
        | .sendBit _ => 3
        | .latch => 2
        | .clear => 3 * s.total + 2 := by
  intro hc
  cases hc with
  | construct => rw [instrEvents, List.length_append, clearEvents_length, constructed_total, Nat.add_assoc]; rfl
  | transmit => rw [instrEvents, shiftAndLatchEvents_length, sentBits_length]
  | destroy => rw [instrEvents, List.length_append, clearEvents_length]; rfl
  | clear => rw [instrEvents, clearEvents_length]
  | setActive | sendBit | latch => rfl

/-- Settles O54: the trace grows by the events of the instruction. -/
theorem eventCounts : Obligations.EventCounts := by
  unfold Obligations.EventCounts
  intro i s t h hf
  have hc := completed_of_fault_eq h hf
  obtain ⟨p, -, hdrove⟩ := hc.drove
  rw [hdrove.trace, List.length_append, List.length_map]
  exact congrArg (s.out.trace.length + ·) hc.events_length

/-- Each bit is one rise of the shift clock, and none of the latch line (R81). -/
theorem count_sendBitTraces (bits : List Bool) :
    (bits.flatMap sendBitTrace).count 0x3#4 = bits.length ∧ (bits.flatMap sendBitTrace).count 0xB#4 = 0 := by
  induction bits with
  | nil => exact ⟨rfl, rfl⟩
  | cons d ds ih =>
    have hclock : (sendBitTrace d).count 0x3#4 = 1 := by cases d <;> rfl
    have hlatch : (sendBitTrace d).count 0xB#4 = 0 := by cases d <;> rfl
    obtain ⟨ihclock, ihlatch⟩ := ih
    rw [List.flatMap_cons, List.count_append, List.count_append, ihclock, ihlatch, hclock, hlatch, List.length_cons]
    omega

/-- Settles O30: one clock pulse for each of the ACTIVE bits sent, then the latch pulse. -/
theorem transmitPulsesExactlyActive : Obligations.TransmitPulsesExactlyActive := by
  unfold Obligations.TransmitPulsesExactlyActive
  intro s t buf b h hf
  obtain ⟨p, -, hdrove⟩ := (completed_of_fault_eq h hf).drove
  have hcodes : codes ((instrEvents s (.transmit buf b)).map (traceEvent p)) =
      (sentBits s.active buf b).flatMap sendBitTrace ++ latchTrace := by
    rw [← map_eventCode_shiftAndLatch, codes, List.map_map]; rfl
  obtain ⟨hclock, hlatch⟩ := count_sendBitTraces (sentBits s.active buf b)
  refine ⟨_, hdrove.trace, ?_, ?_, _, hcodes⟩
  · rw [hcodes, List.count_append, hclock, sentBits_length]; rfl
  · rw [hcodes, List.count_append, hlatch]; rfl

/-! ### The order of the set-up and release events (R62, R64) -/

/-- Where no channel is live only CONSTRUCT completes. -/
theorem Completed.construct_of_not_live {i : Instr} {s t : State} (hc : Completed s i t) (hnl : s.life ≠ .live) :
    ∃ p r, i = .construct p r ∧ t.pins = some p := by
  cases hc with
  | construct => exact ⟨_, _, rfl, rfl⟩
  | transmit hlive | setActive hlive | destroy hlive | sendBit hlive | latch hlive | clear hlive =>
    exact absurd hlive hnl

/-- Where no channel is live a step drives no pin, but by a CONSTRUCT at the port. -/
theorem step_out_of_not_live {s t : State} (hnl : s.life ≠ .live) (h : step s = .next t) :
    t.out = s.out ∨ ∃ c cs p r, s.port = c :: cs ∧ decode (.command c) = .ok (.construct p r) ∧ t.pins = some p := by
  obtain hout | ⟨i, s', -, htaken, hc, -, -⟩ := step_drove h
  · exact .inl hout
  · cases htaken with
    | micro _ hd =>
      obtain ⟨p, r, rfl, -⟩ := hc.construct_of_not_live hnl
      obtain ⟨d, -, hi⟩ | ⟨-, hi⟩ | ⟨-, hi⟩ := decodeMicro_cases hd <;> cases hi
    | command _ hp hd =>
      obtain ⟨p, r, rfl, hpins⟩ := hc.construct_of_not_live hnl
      exact .inr ⟨_, _, p, r, hp, hd, hpins⟩

/-- Settles O26: the traces of O23 and O25 in the order in which the events stand in the model. -/
theorem setUpAndReleaseOrder : Obligations.SetUpAndReleaseOrder := by
  unfold Obligations.SetUpAndReleaseOrder
  refine ⟨fun s t p r h hf => ?_, fun model p w => ?_, fun s t p a hpins h hf => ?_, release_level,
    fun s t hreleased => step_out_of_not_live (by rw [hreleased]; nofun)⟩
  · cases completed_of_fault_eq h hf
    have hemitted := emitted_constructed s p r
    rw [List.append_assoc] at hemitted
    exact ⟨_, hemitted⟩
  · exact ⟨emitAll_trace .., rfl, setup_mode .., setup_level ..⟩
  · cases completed_of_fault_eq h hf with | destroy _ hpins' => ?_
    cases hpins.symm.trans hpins'
    exact ⟨_, emitted_destroyed s p⟩

/-! ### Levels (R73, R110) -/

/-- The last bit TRANSMIT sends: padding if there is any, else data bit n - 1. -/
theorem sentBits_getLast? (s : State) (buf : List Byte) (b : Int) (hactive : s.active ≠ 0) :
    (sentBits s.active buf b).getLast? =
      some (if dataOf s buf b < s.active then false else bufBit buf (dataOf s buf b - 1)) := by
  have hle : dataOf s buf b ≤ s.active := dataCount_le_active s.active buf b
  rw [List.getLast?_eq_getElem?, sentBits_length, sentBits_getElem? s buf b (by omega)]
  by_cases hpad : dataOf s buf b < s.active
  · rw [if_neg (by omega), if_pos hpad]
  · have hn : dataOf s buf b = s.active := by omega
    rw [hn, if_pos (by omega), if_neg (by omega)]

/-- Settles O31: the shift clock and the latch line end their pulses LOW, and the data line keeps the last bit sent. -/
theorem transmitLevels : Obligations.TransmitLevels := by
  unfold Obligations.TransmitLevels
  intro s t buf b hinv hlive h hf n
  cases completed_of_fault_eq h hf with | @transmit _ _ p _ _ _ => ?_
  have hready := shiftAndLatch_ready s.params.chainModel p (hinv.live hlive).ready (sentBits s.active buf b)
  refine ⟨hready.sclk, hready.lclk, ?_⟩
  rw [emitState_out, shiftAndLatch_level]
  by_cases hactive : s.active = 0
  · have hnil : sentBits s.active buf b = [] := List.length_eq_zero_iff.mp ((sentBits_length ..).trans hactive)
    rw [hnil, if_pos hactive]
    rfl
  · rw [sentBits_getLast? s buf b hactive, if_neg hactive]
    by_cases hpad : n < s.active
    · rw [if_pos hpad, if_pos hpad]
      rfl
    · rw [if_neg hpad, if_neg hpad]
      exact levelReg_bitLevel _

/-- Settles O58: CLEAR writes the data line LOW for each zero it sends, both pulse lines were and end LOW, and the release
writes no level. -/
theorem destroyLevels : Obligations.DestroyLevels := by
  unfold Obligations.DestroyLevels
  intro s t a hinv hlive h
  obtain ⟨p, -, rfl⟩ := exec_destroy_of_live hlive h
  rw [destroyed_level]
  by_cases hzero : s.total = 0
  · rw [hzero, clear_level_zero, if_pos rfl, ← hinv.lclkLow]
  · rw [clear_level_pos _ _ _ (by omega), if_neg hzero]
    simp only [hinv.sclkLow, hinv.lclkLow]

/-! ### Bits that TRANSMIT does not examine (R38) -/

/-- A buffer is too short for a count exactly when it gives fewer data bits than that. -/
theorem bufferOverrun_iff_dataOf (s : State) (buf : List Byte) (b : Int) :
    bufferOverrun s buf b ↔ s.params.shortBuffer = .fault ∧ dataOf s buf b < effOf s b := by
  refine and_congr_right fun _ => ?_
  rw [dataOf, effOf_eq]
  omega

/-- Settles O32: of the buffer TRANSMIT uses the number of data bits, to compare it with the count, and those bits. -/
theorem transmitIgnoresUnexaminedBits : Obligations.TransmitIgnoresUnexaminedBits := by
  unfold Obligations.TransmitIgnoresUnexaminedBits
  intro s buf buf' b hdata hbits
  have hover : bufferOverrun s buf' b ↔ bufferOverrun s buf b := by
    rw [bufferOverrun_iff_dataOf, bufferOverrun_iff_dataOf, hdata]
  have hsent : sentBits s.active buf' b = sentBits s.active buf b := by
    rw [sentBits_eq_bufBits, sentBits_eq_bufBits, hdata]
    congr 1
    exact List.map_congr_left fun k hk => hbits k (List.mem_range.mp hk)
  change execTransmit buf' b s = execTransmit buf b s
  simp only [execTransmit, hover, hsent]

/-! ### MODE, LEVEL and TRACE of any step (R16, R25 to R29) -/

/-- Settles O46: an instruction that completes drives the pins bound after it; anything else leaves the output side alone. -/
theorem onlyOwnedPinsAreDriven : Obligations.OnlyOwnedPinsAreDriven := by
  unfold Obligations.OnlyOwnedPinsAreDriven
  intro s t h
  obtain hout | ⟨i, s', p, htaken, hc, hpins, hdrove⟩ := step_drove h
  · exact ⟨[], by rw [hout, List.append_nil], .inl rfl, fun _ _ => hout⟩
  · have hlive : s.life = .live ∨ t.life = .live := by obtain ⟨us, cs, rfl⟩ := htaken.frame; exact hc.live
    refine ⟨_, hdrove.trace, .inr ⟨hlive, p, hpins, fun e he => ?_⟩, fun hs ht => (hlive.elim hs ht).elim⟩
    obtain ⟨e', -, rfl⟩ := List.mem_map.mp he
    rfl

theorem step_drove_some {s t : State} (h : step s = .next t) : ∃ p es, Drove p es s.out t.out := by
  obtain hout | ⟨i, s', p, -, -, -, hdrove⟩ := step_drove h
  · exact ⟨fillerPins, [], hout ▸ Drove.refl _ _⟩
  · exact ⟨p, _, hdrove⟩

/-- The events that a step added to the trace are those it emitted. -/
theorem Drove.events_eq {p : PinSet} {es : List PinEvent} {w v : Output} (h : Drove p es w v) {added : List TraceEvent}
    (htrace : v.trace = w.trace ++ added) : added = es.map (traceEvent p) :=
  List.append_cancel_left (htrace.symm.trans h.trace)

/-- An entry that each event either sets or leaves is, after a run of events, what the last one that sets it gave. -/
theorem get_foldl_eq_getLast? {α β γ : Type} {get : α → γ} {f : α → β → α} {sets : β → Option γ}
    (hf : ∀ a e, get (f a e) = (sets e).getD (get a)) (es : List β) (a : α) :
    get (es.foldl f a) = (es.filterMap sets).getLast?.getD (get a) := by
  induction es generalizing a with
  | nil => rfl
  | cons e es ih =>
    rw [List.foldl_cons, ih, hf]
    cases he : sets e with
    | none => rw [List.filterMap_cons_none he]; rfl
    | some x => rw [List.filterMap_cons_some he, List.getLast?_cons]; rfl

/-- The mode an event gives to the pin of a role (R16). -/
def modeSet (r : Role) (e : PinEvent) : Option ModeReg :=
  match e.act with
  | .setMode m => if e.role = r then some (modeReg m) else none
  | .write _ => none

/-- The level an event writes to the pin of a role (R16). -/
def levelSet (r : Role) (e : PinEvent) : Option LevelReg :=
  match e.act with
  | .setMode _ => none
  | .write l => if e.role = r then some (levelReg l) else none

theorem perRoleGet_perRoleSet {α : Type} (v : PerRole α) (r r' : Role) (a : α) :
    perRoleGet (perRoleSet v r' a) r = if r' = r then a else perRoleGet v r := by
  cases r' <;> cases r <;> rfl

theorem perRoleGet_modeAfter (r : Role) (mode : PerRole ModeReg) (e : PinEvent) :
    perRoleGet (modeAfter mode e) r = (modeSet r e).getD (perRoleGet mode r) := by
  obtain ⟨role, act⟩ := e
  cases act with
  | setMode m =>
    refine (perRoleGet_perRoleSet mode r role (modeReg m)).trans ?_
    by_cases hr : role = r <;> simp [modeSet, hr]
  | write => rfl

theorem perRoleGet_levelAfter (r : Role) (level : PerRole LevelReg) (e : PinEvent) :
    perRoleGet (levelAfter level e) r = (levelSet r e).getD (perRoleGet level r) := by
  obtain ⟨role, act⟩ := e
  cases act with
  | setMode => rfl
  | write l =>
    refine (perRoleGet_perRoleSet level r role (levelReg l)).trans ?_
    by_cases hr : role = r <;> simp [levelSet, hr]

/-- Settles O47: MODE and LEVEL are folded over the events of the step, each of which sets an entry or leaves it. -/
theorem pinStateFollowsTheTrace : Obligations.PinStateFollowsTheTrace := by
  unfold Obligations.PinStateFollowsTheTrace
  intro s t added h htrace r modes levels
  obtain ⟨p, es, hdrove⟩ := step_drove_some h
  have hadded := hdrove.events_eq htrace
  have hmodes : modes = es.filterMap (modeSet r) := by
    simp only [modes, hadded, List.filterMap_map]; rfl
  have hlevels : levels = es.filterMap (levelSet r) := by
    simp only [levels, hadded, List.filterMap_map]; rfl
  rw [hdrove.mode, hdrove.level, hmodes, hlevels]
  exact ⟨get_foldl_eq_getLast? (get := (perRoleGet · r)) (perRoleGet_modeAfter r) es s.out.mode,
    get_foldl_eq_getLast? (get := (perRoleGet · r)) (perRoleGet_levelAfter r) es s.out.level⟩

end Sys2Proof.Safety

/-!
PROOFS. The pulse discipline of the three lines (R98, R113, R115), and that an edge-triggered and a level-triggered latch agree
(R100, D29, log entry 20).
-/

namespace Sys2Proof.Safety

open Sys2Proof.Machine

/-! ### The pulse discipline (R113, R115) -/

/-- What an event may do at these levels: the data line is not written while the shift clock is HIGH, and a pulse line rises
only while both are LOW, the shift clock only with the data line known. -/
def Allowed (level : PerRole LevelReg) (e : PinEvent) : Prop :=
  (∀ l, e = ⟨.sdata, .write l⟩ → level.sclk ≠ .high) ∧
    (e = ⟨.sclk, .write .high⟩ → level.sclk = .low ∧ level.lclk = .low ∧ level.sdata ≠ .unknown) ∧
    (e = ⟨.lclk, .write .high⟩ → level.lclk = .low ∧ level.sclk = .low)

/-- Each event is allowed at the levels that the events before it leave. -/
def Disciplined : PerRole LevelReg → List PinEvent → Prop
  | _, [] => True
  | level, e :: es => Allowed level e ∧ Disciplined (levelAfter level e) es

theorem disciplined_append (level : PerRole LevelReg) (es fs : List PinEvent) :
    Disciplined level (es ++ fs) ↔ Disciplined level es ∧ Disciplined (es.foldl levelAfter level) fs := by
  induction es generalizing level with
  | nil => simp [Disciplined]
  | cons e es ih => simp [Disciplined, ih, and_assoc]

theorem Disciplined.allowed {level : PerRole LevelReg} {es : List PinEvent} (h : Disciplined level es) {k : Nat}
    {e : PinEvent} (he : es[k]? = some e) : Allowed ((es.take k).foldl levelAfter level) e := by
  induction es generalizing level k with
  | nil => cases he
  | cons e' es ih =>
    obtain ⟨hallowed, hrest⟩ := h
    cases k with
    | zero => cases he; exact hallowed
    | succ k => exact ih hrest he

/-- Both pulse lines are LOW: where a pulse may begin (R114). -/
def PulsesLow (level : PerRole LevelReg) : Prop := level.sclk = .low ∧ level.lclk = .low

theorem sendBit_disciplined {level : PerRole LevelReg} (h : PulsesLow level) (d : Bool) :
    Disciplined level (sendBitEvents d) := by
  obtain ⟨hsclk, hlclk⟩ := h
  cases d <;> simp [Disciplined, Allowed, sendBitEvents, levelAfter, perRoleSet, bitLevel, levelReg, hsclk, hlclk]

theorem sendBit_pulsesLow {level : PerRole LevelReg} (h : PulsesLow level) (d : Bool) :
    PulsesLow ((sendBitEvents d).foldl levelAfter level) := ⟨rfl, h.2⟩

theorem sendBits_disciplined {level : PerRole LevelReg} (h : PulsesLow level) (bits : List Bool) :
    Disciplined level (sendBitsEvents bits) ∧ PulsesLow ((sendBitsEvents bits).foldl levelAfter level) := by
  induction bits generalizing level with
  | nil => exact ⟨trivial, h⟩
  | cons d ds ih =>
    obtain ⟨hrest, hlow⟩ := ih (sendBit_pulsesLow h d)
    rw [sendBits_cons, disciplined_append, List.foldl_append]
    exact ⟨⟨sendBit_disciplined h d, hrest⟩, hlow⟩

theorem latch_disciplined {level : PerRole LevelReg} (h : PulsesLow level) : Disciplined level latchEvents := by
  obtain ⟨hsclk, hlclk⟩ := h
  simp [Disciplined, Allowed, latchEvents, hsclk, hlclk]

theorem shiftAndLatch_disciplined {level : PerRole LevelReg} (h : PulsesLow level) (bits : List Bool) :
    Disciplined level (shiftAndLatchEvents bits) := by
  obtain ⟨hbits, hlow⟩ := sendBits_disciplined h bits
  exact (disciplined_append ..).mpr ⟨hbits, latch_disciplined hlow⟩

/-- Before the data line is written the set-up phase has written the shift clock LOW, and it raises no pulse line. -/
theorem setup_disciplined (level : PerRole LevelReg) : Disciplined level setupEvents := by
  simp [Disciplined, Allowed, setupEvents, levelAfter, perRoleSet, levelReg]

theorem release_disciplined (level : PerRole LevelReg) : Disciplined level releaseEvents := by
  simp [Disciplined, Allowed, releaseEvents]

theorem LiveInv.pulsesLow {s : State} (h : LiveInv s) : PulsesLow s.out.level := ⟨h.sclkLow, h.lclkLow⟩

theorem Completed.disciplined {i : Instr} {s t : State} (hc : Completed s i t) (hinv : Inv s) :
    Disciplined s.out.level (instrEvents s i) := by
  cases hc with
  | construct =>
    exact (disciplined_append ..).mpr ⟨setup_disciplined _, shiftAndLatch_disciplined ⟨rfl, rfl⟩ _⟩
  | transmit hlive => exact shiftAndLatch_disciplined (hinv.live hlive).pulsesLow _
  | setActive => trivial
  | destroy hlive =>
    exact (disciplined_append ..).mpr
      ⟨shiftAndLatch_disciplined (hinv.live hlive).pulsesLow _, release_disciplined _⟩
  | sendBit hlive => exact sendBit_disciplined (hinv.live hlive).pulsesLow _
  | latch hlive => exact latch_disciplined (hinv.live hlive).pulsesLow
  | clear hlive => exact shiftAndLatch_disciplined (hinv.live hlive).pulsesLow _

/-! ### No shift pulse follows the latch pulse -/

/-- The event that begins a shift pulse (R81). -/
def clockRise : PinEvent := ⟨.sclk, .write .high⟩

/-- The event that begins the latch pulse (R82). -/
def latchRise : PinEvent := ⟨.lclk, .write .high⟩

theorem sendBits_ne_latch_write (bits : List Bool) : ∀ e ∈ sendBitsEvents bits, ∀ l, e ≠ ⟨.lclk, .write l⟩ := by
  rintro e he l rfl
  obtain ⟨d, -, hd⟩ := List.mem_flatMap.mp he
  simp [sendBitEvents] at hd

theorem sendBits_ne_latchRise (bits : List Bool) : ∀ e ∈ sendBitsEvents bits, e ≠ latchRise :=
  fun e he => sendBits_ne_latch_write bits e he .high

/-- The events of an instruction fall in two parts: no latch pulse begins in the first, and no shift pulse in the second. -/
theorem instrEvents_split (s : State) (i : Instr) :
    ∃ front back, instrEvents s i = front ++ back ∧ (∀ e ∈ front, e ≠ latchRise) ∧ ∀ e ∈ back, e ≠ clockRise := by
  have hlatch : ∀ e ∈ latchEvents, e ≠ clockRise := by decide
  cases i with
  | construct p r =>
    refine ⟨setupEvents ++ sendBitsEvents _, latchEvents, (List.append_assoc ..).symm, ?_, hlatch⟩
    exact List.forall_mem_append.mpr ⟨by decide, sendBits_ne_latchRise _⟩
  | transmit buf n => exact ⟨_, latchEvents, rfl, sendBits_ne_latchRise _, hlatch⟩
  | setActive n => exact ⟨[], [], rfl, nofun, nofun⟩
  | destroy a =>
    exact ⟨sendBitsEvents _, latchEvents ++ releaseEvents, List.append_assoc .., sendBits_ne_latchRise _, by decide⟩
  | sendBit d => exact ⟨sendBitsEvents [d], [], rfl, sendBits_ne_latchRise _, nofun⟩
  | latch => exact ⟨[], latchEvents, rfl, nofun, hlatch⟩
  | clear => exact ⟨_, latchEvents, rfl, sendBits_ne_latchRise _, hlatch⟩

theorem instrEvents_no_clockRise_after_latchRise (s : State) (i : Instr) {k m : Nat} {e f : PinEvent}
    (he : (instrEvents s i)[k]? = some e) (hf : (instrEvents s i)[m]? = some f) (hkm : k < m) (hrise : e = latchRise) :
    f ≠ clockRise := by
  obtain ⟨front, back, heq, hfront, hback⟩ := instrEvents_split s i
  rw [heq] at he hf
  have hk : front.length ≤ k := by
    by_contra hlt
    rw [List.getElem?_append_left (by omega)] at he
    exact hfront e (List.mem_of_getElem? he) hrise
  rw [List.getElem?_append_right (by omega)] at hf
  exact hback f (List.mem_of_getElem? hf)

/-- An entry of the events added to the trace is an event emitted there. -/
theorem getElem?_map_traceEvent {p : PinSet} {es : List PinEvent} {k : Nat} {e : TraceEvent}
    (h : (es.map (traceEvent p))[k]? = some e) : es[k]? = some e.event := by
  rw [List.getElem?_map, Option.map_eq_some_iff] at h
  obtain ⟨e', he', rfl⟩ := h
  exact he'

theorem map_event_take (p : PinSet) (es : List PinEvent) (k : Nat) :
    (((es.map (traceEvent p)).take k).map (·.event)) = es.take k := by
  rw [← List.map_take, List.map_map]
  exact List.map_id _

/-- Settles O48: a step that emits events has completed one instruction, whose events keep the discipline from the levels the
invariant gives. -/
theorem pulseShapes : Obligations.PulseShapes := by
  unfold Obligations.PulseShapes
  intro s t added h hstep htrace
  obtain hout | ⟨i, s', p, htaken, hc, -, hdrove⟩ := step_drove hstep
  · obtain rfl : added = [] := List.append_cancel_left (htrace.symm.trans (by rw [hout, List.append_nil]))
    exact ⟨nofun, nofun⟩
  · obtain rfl := hdrove.events_eq htrace
    have hdisciplined : Disciplined s.out.level (instrEvents s' i) := by
      obtain ⟨us, cs, rfl⟩ := htaken.frame
      exact hc.disciplined (h.inv.taken us cs)
    refine ⟨fun k e he => ?_, fun k m e f he hf hkm hrise => ?_⟩
    · rw [map_event_take]
      exact hdisciplined.allowed (getElem?_map_traceEvent he)
    · exact instrEvents_no_clockRise_after_latchRise s' i (getElem?_map_traceEvent he) (getElem?_map_traceEvent hf) hkm
        hrise

/-! ### Edge-triggered and level-triggered latches (R100) -/

variable (model : ChainModel) (p : PinSet)

theorem emitAllLevel_append (w : Output) (es fs : List PinEvent) :
    emitAllLevel model p w (es ++ fs) = emitAllLevel model p (emitAllLevel model p w es) fs := by
  simp [emitAllLevel, List.foldl_append]

/-- While the latch line is LOW the two readings agree on every event: either it rises, or Q does not follow S. -/
theorem emitLevel_eq_emit {w : Output} (h : w.level.lclk = .low) (e : PinEvent) :
    emitLevel model p w e = emit model p w e := by
  obtain ⟨role, act⟩ := e
  cases act with
  | setMode => cases role <;> simp [emitLevel, emit, Chain.observeLevel, h]
  | write l =>
    cases role with
    | sclk | sdata => simp [emitLevel, emit, Chain.observeLevel, h]
    | lclk => cases l <;> simp [emitLevel, emit, Chain.observeLevel, Chain.observe, h]

theorem levelAfter_lclk_of_ne_write {level : PerRole LevelReg} {e : PinEvent} (he : ∀ l, e ≠ ⟨.lclk, .write l⟩) :
    (levelAfter level e).lclk = level.lclk := by
  obtain ⟨role, act⟩ := e
  cases act with
  | setMode => rfl
  | write l =>
    cases role with
    | sclk | sdata => rfl
    | lclk => exact absurd rfl (he l)

/-- The two readings agree on events that leave the latch line LOW as it is. -/
theorem emitAllLevel_eq_of_ne_write {w : Output} (h : w.level.lclk = .low) {es : List PinEvent}
    (hes : ∀ e ∈ es, ∀ l, e ≠ ⟨.lclk, .write l⟩) : emitAllLevel model p w es = emitAll model p w es := by
  induction es generalizing w with
  | nil => rfl
  | cons e es ih =>
    obtain ⟨he, hrest⟩ := List.forall_mem_cons.mp hes
    have hstep : emitAllLevel model p w (e :: es) = emitAllLevel model p (emit model p w e) es :=
      congrArg (emitAllLevel model p · es) (emitLevel_eq_emit model p h e)
    rw [hstep, ih ((levelAfter_lclk_of_ne_write he).trans h) hrest, emitAll_cons]

theorem release_ne_latch_write : ∀ e ∈ releaseEvents, ∀ l, e ≠ ⟨.lclk, .write l⟩ := by
  rintro e he l rfl
  simp [releaseEvents] at he

/-- The latch line rises from LOW, where the readings agree, and its fall is no event of the chain in either. -/
theorem emitAllLevel_latch {w : Output} (h : w.level.lclk = .low) :
    emitAllLevel model p w latchEvents = emitAll model p w latchEvents :=
  congrArg (emitLevel model p · ⟨.lclk, .write .low⟩) (emitLevel_eq_emit model p h ⟨.lclk, .write .high⟩)

theorem emitAllLevel_shiftAndLatch {w : Output} (h : w.level.lclk = .low) (bits : List Bool) :
    emitAllLevel model p w (shiftAndLatchEvents bits) = emitAll model p w (shiftAndLatchEvents bits) := by
  have hlow : (emitAll model p w (sendBitsEvents bits)).level.lclk = .low := by rw [sendBits_level]; exact h
  rw [shiftAndLatchEvents, emitAllLevel_append, emitAllLevel_eq_of_ne_write model p h (sendBits_ne_latch_write bits),
    emitAllLevel_latch model p hlow, emitAll_append]

theorem emitAllLevel_destroy {w : Output} (h : w.level.lclk = .low) (n : Nat) :
    emitAllLevel model p w (clearEvents n ++ releaseEvents) = emitAll model p w (clearEvents n ++ releaseEvents) := by
  have hclear : emitAllLevel model p w (clearEvents n) = emitAll model p w (clearEvents n) :=
    emitAllLevel_shiftAndLatch model p h _
  rw [emitAllLevel_append, hclear, emitAllLevel_eq_of_ne_write model p (clear_level_lclk model p w n)
    release_ne_latch_write, emitAll_append]

/-- The set-up events leave the same pins and trace in either reading, whatever the chain does: it is redrawn after them. -/
theorem levelOutput_construct (s : State) (r : Int) :
    levelOutput s p (.construct p r) =
      emitAllLevel s.params.chainModel p (setUpOutput s p r) (clearEvents (clampCount r s.params.maxSerialBits)) := rfl

/-- Settles O53: what emits after the set-up phase, or on a live channel, starts with the latch line LOW. -/
theorem edgeAndLevelLatchAgree : Obligations.EdgeAndLevelLatchAgree := by
  unfold Obligations.EdgeAndLevelLatchAgree
  refine ⟨fun model p w bits h => emitAllLevel_shiftAndLatch model p h bits, fun i s t p hinv h hf hpins => ?_⟩
  have hbound {q : PinSet} (hq : s.pins = some q) (ht : t.pins = s.pins) : q = p :=
    Option.some.inj (hq.symm.trans (ht.symm.trans hpins))
  cases completed_of_fault_eq h hf with
  | construct =>
    cases hpins
    rw [levelOutput_construct, constructed_out]
    exact (emitAllLevel_shiftAndLatch _ p rfl _).symm
  | setActive => rfl
  | transmit hlive _ hq =>
    cases hbound hq rfl
    exact (emitAllLevel_shiftAndLatch _ p (hinv.live hlive).lclkLow _).symm
  | destroy hlive hq =>
    cases hbound hq rfl
    rw [destroyed_out]
    exact (emitAllLevel_destroy _ p (hinv.live hlive).lclkLow _).symm
  | sendBit hlive hq =>
    cases hbound hq rfl
    exact (emitAllLevel_eq_of_ne_write _ p (hinv.live hlive).lclkLow (sendBits_ne_latch_write [_])).symm
  | latch hlive hq =>
    cases hbound hq rfl
    exact (emitAllLevel_latch _ p (hinv.live hlive).lclkLow).symm
  | clear hlive hq =>
    cases hbound hq rfl
    exact (emitAllLevel_shiftAndLatch _ p (hinv.live hlive).lclkLow _).symm

end Sys2Proof.Safety

/-!
PROOFS. A command against its micro-operations run one at a time (R57, R101), the order of commands (R43), and that the block
does not depend on the chain (R10, R97).
-/

namespace Sys2Proof.Safety

open Sys2Proof.Machine

/-! ### Runs of steps -/

theorem steps_one (s : State) : steps 1 s = step s := by
  rw [steps_succ]
  cases step s <;> rfl

/-- A run that goes on from where a first run ended. -/
theorem steps_add {m : Nat} {s t : State} (h : steps m s = .next t) (n : Nat) : steps (m + n) s = steps n t := by
  induction m generalizing s with
  | zero => cases h; rw [Nat.zero_add]
  | succ m ih =>
    rw [Nat.succ_add, steps_succ]
    rw [steps_succ] at h
    cases hstep : step s with
    | next u => rw [hstep] at h; exact ih h
    | fault r | refused r => rw [hstep] at h; cases h

theorem step_micro {s : State} {u : MicroCode} {us : List MicroCode} {i : Instr} (hrun : ¬stopped s)
    (hu : s.useq = u :: us) (hd : decodeMicro u = .ok i) : step s = exec i { s with useq := us } := by
  rw [step, fetch_micro hrun hu hd]

/-- The code standing first in the sequencer runs on the state without it. -/
theorem step_sequenced {s : State} {u : MicroCode} {i : Instr} (hrun : ¬stopped s) (hd : decodeMicro u = .ok i)
    (us : List MicroCode) : step { s with useq := u :: us } = exec i { s with useq := us } :=
  step_micro (s := { s with useq := u :: us }) hrun rfl hd

theorem decodeMicro_sendBitCode (d : Bool) : decodeMicro (sendBitCode d) = .ok (.sendBit d) := by
  cases d <;> rfl

/-! ### Micro-operations one at a time (R57) -/

section Sequencer

variable {s : State} {p : PinSet} (hrun : ¬stopped s) (hlive : s.life = .live) (hpins : s.pins = some p)
include hrun hlive hpins

/-- The SEND_BITs standing first in the sequencer, run one by one, emit what they emit together. -/
theorem steps_sendBits (bits : List Bool) (us : List MicroCode) :
    steps bits.length { s with useq := bits.map sendBitCode ++ us } =
      .next { emitState s p (sendBitsEvents bits) with useq := us } := by
  induction bits generalizing s with
  | nil => rfl
  | cons d ds ih =>
    have hstep : step { s with useq := (d :: ds).map sendBitCode ++ us } =
        .next { emitState s p (sendBitEvents d) with useq := ds.map sendBitCode ++ us } :=
      (step_sequenced hrun (decodeMicro_sendBitCode d) _).trans
        (exec_sendBit_live (s := { s with useq := ds.map sendBitCode ++ us }) hrun hlive hpins d)
    rw [List.length_cons, steps_succ, hstep]
    refine (ih (s := emitState s p (sendBitEvents d)) hrun hlive hpins).trans ?_
    rw [sendBits_cons, emitState, emitState, emitState, emitAll_append]

theorem step_latchCode (us : List MicroCode) :
    step { s with useq := latchCode :: us } = .next { emitState s p latchEvents with useq := us } :=
  (step_sequenced hrun rfl us).trans (exec_latch_live (s := { s with useq := us }) hrun hlive hpins)

theorem step_clearCode (us : List MicroCode) :
    step { s with useq := clearCode :: us } = .next { emitState s p (clearEvents s.total) with useq := us } :=
  (step_sequenced hrun rfl us).trans (exec_clear_live (s := { s with useq := us }) hrun hlive hpins)

/-- SEND_BIT for each bit and then LATCH, one step each, emit what TRANSMIT and CLEAR emit in one (R65, R77). -/
theorem steps_shiftAndLatch (bits : List Bool) :
    steps (bits.length + 1) { s with useq := shiftAndLatchCodes bits } =
      .next { emitState s p (shiftAndLatchEvents bits) with useq := [] } := by
  rw [shiftAndLatchCodes, steps_add (steps_sendBits hrun hlive hpins bits [latchCode]), steps_one]
  refine (step_latchCode (s := emitState s p (sendBitsEvents bits)) hrun hlive hpins []).trans ?_
  rw [shiftAndLatchEvents, emitState, emitState, emitState, emitAll_append]

end Sequencer

/-- Settles O49: k SEND_BITs are k shift edges, which leave Q alone; the LATCH after them is one latch edge. -/
theorem outputsChangeOnceAtTheLatch : Obligations.OutputsChangeOnceAtTheLatch := by
  unfold Obligations.OutputsChangeOnceAtTheLatch
  intro s bits hrun hl hlive run
  obtain ⟨p, hpins, -⟩ := Option.map_eq_some_iff.mp hlive.bound
  refine ⟨fun k hk => ?_, _, steps_shiftAndLatch hrun hl hpins bits, ?_⟩
  · have hsplit : shiftAndLatchCodes bits =
        (bits.take k).map sendBitCode ++ ((bits.drop k).map sendBitCode ++ [latchCode]) := by
      rw [← List.append_assoc, ← List.map_append, List.take_append_drop, shiftAndLatchCodes]
    have hsteps := steps_sendBits hrun hl hpins (bits.take k) ((bits.drop k).map sendBitCode ++ [latchCode])
    rw [List.length_take_of_le hk, ← hsplit] at hsteps
    refine ⟨_, hsteps, ?_⟩
    exact (congrArg Chain.q (sendBits_chain _ p hlive.ready _)).trans (shiftAll_q ..)
  · rw [emitState_out, shiftAndLatch_chain _ p hlive.ready, latchEdge_q, latchEdge_s]

theorem with_useq_nil {s : State} (h : s.useq = []) : { s with useq := [] } = s := by
  rw [← h]

/-- What CONSTRUCT leaves before its CLEAR: pins set up and the chain redrawn (R62, R103). -/
def setUpState (s : State) (p : PinSet) (r : Int) : State :=
  redrawChain (emitState (bindChannel s p r) p setupEvents)
    (chainStages s.params.chainLength (clampCount r s.params.maxSerialBits))

theorem constructed_eq_clear_setUp (s : State) (p : PinSet) (r : Int) :
    constructed s p r = emitState (setUpState s p r) p (clearEvents (setUpState s p r).total) := rfl

theorem emitted_setUp (s : State) (p : PinSet) (r : Int) : emitted s (setUpState s p r) p setupTrace :=
  emitted_of_trace (es := setupEvents) (emitAll_trace _ p s.out _)

/-- Settles O50: TRANSMIT and CLEAR run their expansion bit by bit, and the single code CLEAR is one step of the others. -/
theorem commandsRefineMicroOps : Obligations.CommandsRefineMicroOps := by
  unfold Obligations.CommandsRefineMicroOps
  intro s hrun hu
  refine ⟨fun p buf b hlive hpins hfits => ?_, fun p hlive hpins => ?_, fun p a hlive hpins => ?_,
    fun p r hnl hdistinct => ?_⟩
  · have hsteps := steps_shiftAndLatch hrun hlive hpins (sentBits s.active buf b)
    rw [sentBits_length, with_useq_nil (s := emitState s p _) hu] at hsteps
    exact (execTransmit_ok hrun hlive hfits hpins).trans hsteps.symm
  · have hsteps := steps_shiftAndLatch hrun hlive hpins (List.replicate s.total false)
    rw [List.length_replicate, with_useq_nil (s := emitState s p _) hu] at hsteps
    exact (exec_clear_live hrun hlive hpins).trans hsteps.symm
  · have hstep := step_clearCode hrun hlive hpins []
    rw [with_useq_nil (s := emitState s p _) hu, ← steps_one] at hstep
    exact ⟨_, hstep, execDestroy_ok hrun hlive hpins a⟩
  · have hstep := step_clearCode (s := setUpState s p r) (p := p) hrun rfl rfl []
    rw [with_useq_nil (s := emitState (setUpState s p r) p _) hu, ← steps_one] at hstep
    refine ⟨{ setUpState s p r with useq := [clearCode] }, rfl, ⟨setupTrace, .refl _, emitted_setUp s p r⟩, rfl,
      ⟨s.draws, Nat.le_refl _, Nat.le_refl _, rfl, rfl, rfl⟩,
      (execConstruct_ok hrun hnl hdistinct r).trans ?_⟩
    rw [constructed_eq_clear_setUp, hstep]

/-! ### States that run alike -/

/-- `s'` and `s` agree on what the checks look at, and each effect leaves states that `f'` and `f` make equal. -/
structure RunsAlike (f' f : State → State) (s' s : State) : Prop where
  fault : s'.fault = s.fault
  life : s'.life = s.life
  pins : s'.pins = s.pins
  total : s'.total = s.total
  active : s'.active = s.active
  argWidth : s'.params.argWidth = s.params.argWidth
  shortBuffer : s'.params.shortBuffer = s.params.shortBuffer
  raise : ∀ cause word, f' (raise s' cause word) = f (raise s cause word)
  setActive : ∀ n, f' { s' with active := n } = f { s with active := n }
  emitState : ∀ p es, f' (emitState s' p es) = f (emitState s p es)
  constructed : ∀ p r, f' (constructed s' p r) = f (constructed s p r)
  destroyed : ∀ p, f' (destroyed s' p) = f (destroyed s p)

section RunsAlike

variable {f' f : State → State} {s' s : State} (h : RunsAlike f' f s' s)
include h

theorem RunsAlike.whenRunning {o' o : Host.Outcome State Machine.Fault Machine.Refusal}
    (ho : mapNext f' o' = mapNext f o) : mapNext f' (whenRunning s' o') = mapNext f (whenRunning s o) := by
  by_cases hrun : stopped s
  · have hrun' : stopped s' := by rwa [stopped, h.fault]
    rw [whenRunning_stopped hrun, whenRunning_stopped hrun', h.fault]; rfl
  · have hrun' : ¬stopped s' := by rwa [stopped, h.fault]
    rwa [whenRunning_running hrun, whenRunning_running hrun']

theorem RunsAlike.withPins {k' k : PinSet → State} (hk : ∀ p, f' (k' p) = f (k p)) :
    mapNext f' (withPins s' k') = mapNext f (withPins s k) := by
  have hpins := h.pins
  cases hp : s.pins with
  | none => simp [Machine.withPins, hpins, hp, mapNext]
  | some p => simp [Machine.withPins, hpins, hp, mapNext, hk p]

theorem RunsAlike.runMicroOp (es : List PinEvent) : mapNext f' (runMicroOp s' es) = mapNext f (runMicroOp s es) := by
  refine h.whenRunning ?_
  rw [h.life]
  split
  · exact h.withPins fun p => h.emitState p es
  · rfl

theorem RunsAlike.execConstruct (p : PinSet) (r : Int) :
    mapNext f' (execConstruct p r s') = mapNext f (execConstruct p r s) := by
  refine h.whenRunning ?_
  simp only [channelLive, h.life, h.argWidth]
  split
  · exact congrArg Host.Outcome.next (h.raise _ _)
  split
  · exact congrArg Host.Outcome.next (h.raise _ _)
  · exact congrArg Host.Outcome.next (h.constructed p r)

theorem RunsAlike.execTransmit (buf : List Byte) (n : Int) :
    mapNext f' (execTransmit buf n s') = mapNext f (execTransmit buf n s) := by
  refine h.whenRunning ?_
  simp only [noChannel, bufferOverrun, h.life, h.argWidth, h.shortBuffer, h.active]
  split
  · exact congrArg Host.Outcome.next (h.raise _ _)
  split
  · exact congrArg Host.Outcome.next (h.raise _ _)
  · exact h.withPins fun p => h.emitState p _

theorem RunsAlike.execSetActive (n : Int) : mapNext f' (execSetActive n s') = mapNext f (execSetActive n s) := by
  refine h.whenRunning ?_
  have hset := h.setActive (clampCount n s.total)
  simp only [noChannel, h.life, h.argWidth, h.total] at hset ⊢
  split
  · exact congrArg Host.Outcome.next (h.raise _ _)
  · exact congrArg Host.Outcome.next hset

theorem RunsAlike.execDestroy (a : Int) : mapNext f' (execDestroy a s') = mapNext f (execDestroy a s) := by
  refine h.whenRunning ?_
  simp only [noChannel, h.life, h.argWidth]
  split
  · exact congrArg Host.Outcome.next (h.raise _ _)
  · exact h.withPins h.destroyed

theorem RunsAlike.exec (i : Instr) : mapNext f' (exec i s') = mapNext f (exec i s) := by
  cases i with
  | construct p r => exact h.execConstruct p r
  | transmit buf n => exact h.execTransmit buf n
  | setActive n => exact h.execSetActive n
  | destroy a => exact h.execDestroy a
  | sendBit d => exact h.runMicroOp (sendBitEvents d)
  | latch => exact h.runMicroOp latchEvents
  | clear => rw [Machine.exec, Machine.exec, execClear, execClear, h.total]; exact h.runMicroOp _

end RunsAlike

/-! ### The order of commands (R43) -/

theorem mapNext_id (o : Host.Outcome State Machine.Fault Machine.Refusal) : mapNext id o = o := by
  cases o <;> rfl

/-- Commands that wait at the port make no difference to an instruction. -/
theorem exec_issue (i : Instr) (s : State) (ds : List Command) :
    exec i (issue s ds) = mapNext (issue · ds) (exec i s) := by
  have halike : RunsAlike id (issue · ds) (issue s ds) s := by constructor <;> intros <;> rfl
  rw [← halike.exec i, mapNext_id]

/-- From the port a step takes one command, and those that the host has issued after it stay there. -/
theorem step_issue {s t : State} {c : Command} {cs : List Command} (hu : s.useq = []) (hp : s.port = c :: cs)
    (h : step s = .next t) (ds : List Command) :
    step (issue s ds) = .next (issue t ds) ∧ t.useq = [] ∧ t.port = cs := by
  have hp' : (issue s ds).port = c :: (cs ++ ds) := by rw [issue_port, hp]; rfl
  obtain ⟨hrun, ⟨u, us, i, hu', -⟩ | ⟨c', cs', i, -, hpc, hw, hd, h⟩ | ⟨c', cs', e, -, hpc, hw, hd, rfl⟩ | ⟨-, hnil, -⟩⟩ :=
    step_cases h
  · rw [hu] at hu'; cases hu'
  · cases hp.symm.trans hpc
    obtain ⟨-, hport, huseq, -⟩ := registerWriters i _ t h
    refine ⟨?_, huseq.trans hu, hport⟩
    rw [step, fetch_command (s := issue s ds) hrun hu hp' hw hd]
    exact (exec_issue i { s with port := cs } ds).trans (by rw [h]; rfl)
  · cases hp.symm.trans hpc
    refine ⟨?_, hu, rfl⟩
    rw [step, fetch_illegal (s := issue s ds) hrun hu hp' hw hd]
    rfl
  · rw [hp] at hnil; cases hnil

/-- As many steps as commands stand at the port do the same whatever is issued after them. -/
theorem steps_issue {s t : State} {cs : List Command} (hu : s.useq = []) (hp : s.port = cs)
    (h : steps cs.length s = .next t) (ds : List Command) : steps cs.length (issue s ds) = .next (issue t ds) := by
  induction cs generalizing s with
  | nil => cases h; rfl
  | cons c cs ih =>
    rw [List.length_cons, steps_succ] at h ⊢
    cases hstep : step s with
    | next u =>
      obtain ⟨hstep', hu', hp'⟩ := step_issue hu hp hstep ds
      rw [hstep] at h
      rw [hstep']
      exact ih hu' hp' h
    | fault r | refused r => rw [hstep] at h; cases h

theorem issue_append (s : State) (cs ds : List Command) : issue s (cs ++ ds) = issue (issue s cs) ds := by
  rw [issue, issue, issue, List.append_assoc]

/-- Settles O55: the first commands run as if nothing stood behind them, and then the run goes on. -/
theorem commandsTakeEffectInOrder : Obligations.CommandsTakeEffectInOrder := by
  unfold Obligations.CommandsTakeEffectInOrder
  intro s t cs ds hs hport h
  have hp : (issue s cs).port = cs := by rw [issue_port, hport, List.nil_append]
  rw [issue_append]
  exact steps_add (steps_issue (s := issue s cs) hs.sequencer hp h ds) ds.length

/-! ### The block does not depend on the chain (R10, R97) -/

/-- What events do to the output side, the chain left out: it depends on neither the chain nor its model. -/
theorem emitAll_with_chain (model : ChainModel) (p : PinSet) (w : Output) (es : List PinEvent) (c : Chain) :
    { emitAll model p w es with chain := c } =
      { mode := es.foldl modeAfter w.mode
        level := es.foldl levelAfter w.level
        trace := w.trace ++ es.map (traceEvent p)
        chain := c } := by
  simp only [emitAll_mode, emitAll_level, emitAll_trace]

theorem constructed_out_with_chain (s : State) (p : PinSet) (r : Int) (c : Chain) :
    { (constructed s p r).out with chain := c } =
      { mode := ⟨.output, .output, .output⟩
        level := ⟨.low, .low, .low⟩
        trace := s.out.trace ++ (setupEvents ++ clearEvents (clampCount r s.params.maxSerialBits)).map (traceEvent p)
        chain := c } := by
  simp only [constructed_mode, constructed_level, constructed_trace]

theorem withoutChain_emitState (s : State) (p : PinSet) (es : List PinEvent) :
    withoutChain (emitState s p es) = withoutChain (emitState (withoutChain s) p es) := by
  simp only [withoutChain, emitState, emitAll_with_chain]

theorem withoutChain_constructed (s : State) (p : PinSet) (r : Int) :
    withoutChain (constructed s p r) = withoutChain (constructed (withoutChain s) p r) := by
  simp only [withoutChain, constructed_out_with_chain]
  rfl

theorem withoutChain_destroyed (s : State) (p : PinSet) :
    withoutChain (destroyed s p) = withoutChain (destroyed (withoutChain s) p) := by
  simp only [withoutChain, destroyed_out, emitAll_with_chain]
  rfl

theorem runsAlike_withoutChain (s : State) : RunsAlike withoutChain withoutChain s (withoutChain s) where
  fault := rfl
  life := rfl
  pins := rfl
  total := rfl
  active := rfl
  argWidth := rfl
  shortBuffer := rfl
  raise _ _ := rfl
  setActive _ := rfl
  emitState := withoutChain_emitState s
  constructed := withoutChain_constructed s
  destroyed := withoutChain_destroyed s

/-- A step of a block with everything about its chain blotted out is, but for the chain, the step of the block. -/
theorem step_withoutChain (s : State) :
    mapNext withoutChain (step s) = mapNext withoutChain (step (withoutChain s)) := by
  by_cases hrun : stopped s
  · rw [step_stopped hrun, step_stopped (s := withoutChain s) hrun]; rfl
  cases hu : s.useq with
  | cons u us =>
    cases hd : decodeMicro u with
    | ok i =>
      rw [step_micro hrun hu hd, step_micro (s := withoutChain s) hrun hu hd]
      exact (runsAlike_withoutChain { s with useq := us }).exec i
    | error e => rw [step, step, fetch_reserved hrun hu hd, fetch_reserved (s := withoutChain s) hrun hu hd]
  | nil =>
    cases hp : s.port with
    | nil => rw [step, step, fetch_idle hrun hu hp, fetch_idle (s := withoutChain s) hrun hu hp]; rfl
    | cons c cs =>
      by_cases hw : c.word.argWidth = s.params.argWidth
      · cases hd : decodeCommand c with
        | ok i =>
          rw [step, step, fetch_command hrun hu hp hw hd, fetch_command (s := withoutChain s) hrun hu hp hw hd]
          exact (runsAlike_withoutChain { s with port := cs }).exec i
        | error e =>
          rw [step, step, fetch_illegal hrun hu hp hw hd, fetch_illegal (s := withoutChain s) hrun hu hp hw hd]; rfl
      · rw [step, step, fetch_width hrun hu hp hw, fetch_width (s := withoutChain s) hrun hu hp hw]

/-- Settles O51: both steps are, but for the chain, the step of one block. -/
theorem chainNeverAffectsTheBlock : Obligations.ChainNeverAffectsTheBlock := by
  unfold Obligations.ChainNeverAffectsTheBlock
  intro s t hst
  rw [step_withoutChain s, step_withoutChain t, hst]

end Sys2Proof.Safety

/-!
PROOFS. Several channels side by side (R107, log entries 8 and 15).
-/

namespace Sys2Proof.Safety

open Sys2Proof.Machine

/-! ### Pins with two owners -/

/-- Where all blocks are disjoint no two of them own one pin, whichever stands first. -/
theorem not_mem_ownedPins_of_allDisjoint {blocks : List State} (h : allDisjoint blocks = true) {i j : Nat} {a b : State}
    (hij : i ≠ j) (ha : blocks[i]? = some a) (hb : blocks[j]? = some b) {pin : PinId} (hpin : pin ∈ ownedPins a) :
    pin ∉ ownedPins b := by
  obtain ⟨hi, rfl⟩ := List.getElem?_eq_some_iff.mp ha
  obtain ⟨hj, rfl⟩ := List.getElem?_eq_some_iff.mp hb
  have hdisjoint := List.pairwise_iff_getElem.mp ((allDisjoint_iff blocks).mp h)
  rcases Nat.lt_or_gt_of_ne hij with hlt | hgt
  · exact (disjointPins_iff ..).mp (hdisjoint i j hi hj hlt) pin hpin
  · have hji := hdisjoint j i hj hi hgt
    rw [disjointPins_comm] at hji
    exact (disjointPins_iff ..).mp hji pin hpin

theorem systemStep_sharedPin {blocks : List State} (h : allDisjoint blocks ≠ true) (k : Fin blocks.length) :
    systemStep blocks k = .refused .sharedPin := by
  rw [systemStep, if_neg h]

/-- Settles O56: a step puts the block's own next state in its place, and is given a meaning only where no pin has two owners
before it and after it. -/
theorem channelsAreIndependent : Obligations.ChannelsAreIndependent := by
  unfold Obligations.ChannelsAreIndependent
  refine ⟨fun blocks after k h => ?_, fun blocks k i j a b pin hij ha hb hpa hpb => ?_⟩
  · obtain ⟨hbefore, hafter, s, hstep, rfl⟩ := systemStep_next h
    refine ⟨List.length_set, fun j hj => List.getElem?_set_ne hj.symm, ⟨s, hstep, List.getElem?_set_self k.isLt⟩,
      fun i j a b hij => ⟨fun ha hb pin => ?_, fun ha hb pin => ?_⟩⟩
    · exact not_mem_ownedPins_of_allDisjoint hafter hij ha hb
    · exact not_mem_ownedPins_of_allDisjoint hbefore hij ha hb
  · refine systemStep_sharedPin (fun hdisjoint => ?_) k
    exact not_mem_ownedPins_of_allDisjoint hdisjoint hij ha hb hpa hpb

/-! ### Blocks stay apart -/

/-- A block just powered on owns no pin, so it is disjoint from every other (R108). -/
theorem allDisjoint_addBlock {blocks : List State} (h : allDisjoint blocks = true) (p : Params) :
    allDisjoint (addBlock blocks p) = true := by
  rw [allDisjoint_iff] at h ⊢
  refine List.pairwise_append.mpr ⟨h, List.pairwise_singleton _ _, fun a _ b hb => ?_⟩
  rw [List.mem_singleton.mp hb, disjointPins_iff, ownedPins_powerOn]
  exact fun _ _ => List.not_mem_nil

/-- A new block draws from the stream of its own number, which no block before it has. -/
theorem addBlock_streams {blocks : List State} (h : ∀ (k : Nat) (s : State), blocks[k]? = some s → s.stream = k)
    (p : Params) {k : Nat} {s : State} (hs : (addBlock blocks p)[k]? = some s) : s.stream = k := by
  by_cases hk : k < blocks.length
  · rw [addBlock, List.getElem?_append_left hk] at hs
    exact h k s hs
  · rw [addBlock, List.getElem?_append_right (by omega), List.getElem?_singleton] at hs
    split at hs
    · cases hs; rw [powerOn_stream]; omega
    · cases hs

theorem step_stream {s t : State} (h : step s = .next t) : t.stream = s.stream := by
  obtain rfl | ⟨cs, cause, word, rfl⟩ | ⟨i, s', htaken, hc⟩ := step_next h
  · rfl
  · rfl
  · obtain ⟨us, cs, rfl⟩ := htaken.frame
    obtain ⟨-, -, -, hstream⟩ := hc.keeps
    exact hstream

theorem SystemInv.systemStep {blocks after : List State} (h : SystemInv blocks) {k : Fin blocks.length}
    (hstep : systemStep blocks k = .next after) : SystemInv after := by
  obtain ⟨-, hafter, s, hs, rfl⟩ := systemStep_next hstep
  refine ⟨hafter, fun j t ht => ?_⟩
  by_cases hj : j = k.val
  · rw [hj, List.getElem?_set_self k.isLt] at ht
    cases ht
    rw [step_stream hs, hj]
    exact h.streams k _ (List.getElem?_eq_getElem k.isLt)
  · rw [List.getElem?_set_ne (Ne.symm hj)] at ht
    exact h.streams j t ht

theorem systemInv_nil : SystemInv [] := ⟨rfl, fun _ _ hs => by rw [List.getElem?_nil] at hs; cases hs⟩

/-- Settles O59: a new block owns no pin and has a stream of its own; a step is given a meaning only where the blocks stay
disjoint, and keeps the stream. -/
theorem blocksStayApart : Obligations.BlocksStayApart := by
  unfold Obligations.BlocksStayApart
  exact ⟨systemInv_nil, fun _ p h => ⟨allDisjoint_addBlock h.pins p, fun _ _ => addBlock_streams h.streams p⟩,
    fun _ _ _ h => h.systemStep⟩

end Sys2Proof.Safety
